-- ==== Sys2Proof/Word.lean ====
section
/-! DEFINITION. The word types of the hardware (spec/00_scope.md R5, R7): bytes, 16-bit words, 12-bit addresses,
register, key and pixel indices. All quantities are unsigned (R6). -/

namespace Sys2Proof

/-- An 8-bit value: a general register, a timer, a memory cell (R5 `REG_BITS`, `TIMER_BITS`; R20). -/
abbrev Byte := BitVec 8

/-- A 16-bit value: an instruction word, and the cells that hold I, PC and a stack slot (R5 `I_CELL_BITS`,
`PC_CELL_BITS`, `STACK_SLOT_BITS`). -/
abbrev Word := BitVec 16

/-- A 12-bit address literal, the field `nnn` of an instruction word (R14, R92). -/
abbrev Addr := BitVec 12

/-- The index of a general register, V0 to VF (R5 `NREGS`, R21). -/
abbrev Reg := Fin 16

/-- The index of a key, 0x0 to 0xF (R5 `NKEYS`, R29). -/
abbrev Key := Fin 16

/-- The height literal `n` of `draw`, 0 to 15 (R92, R96). -/
abbrev Height := Fin 16

/-- A frame buffer column, 0 to 63 (R5 `FB_W`, R30). -/
abbrev Col := Fin 64

/-- A frame buffer row, 0 to 31 (R5 `FB_H`, R30). -/
abbrev Row := Fin 32

/-- The flag register VF is general register 0xF (R5 `FLAG_REG`, R22). -/
abbrev flagReg : Reg := 15

end Sys2Proof
end

