-- ==== Sys2Proof/Syntax.lean ====
section
/-! DEFINITION. The syntax: one constructor per row of spec/opcode_table.json (spec/30_encoding.md R97), with the
operand fields of its format (R93). -/

namespace Sys2Proof

/-- The 35 instructions (R97). `x` and `y` are register indices, `kk` an 8-bit literal, `nnn` a 12-bit address, `n` a
4-bit height (R92). The two shifts carry the field `y` that their word has and their meaning ignores (R96, R172). -/
inductive Instr where
  /-- `00E0`, R181. -/
  | clearScreen
  /-- `00EE`, R144. -/
  | ret
  /-- `0nnn`, R141. -/
  | sys (nnn : Addr)
  /-- `1nnn`, R142. -/
  | jump (nnn : Addr)
  /-- `2nnn`, R143. -/
  | call (nnn : Addr)
  /-- `3xkk`, R146. -/
  | skipIfEqualByte (x : Reg) (kk : Byte)
  /-- `4xkk`, R147. -/
  | skipIfNotEqualByte (x : Reg) (kk : Byte)
  /-- `5xy0`, R148. -/
  | skipIfEqualRegisters (x y : Reg)
  /-- `6xkk`, R163. -/
  | loadLiteral (x : Reg) (kk : Byte)
  /-- `7xkk`, R164. -/
  | addLiteral (x : Reg) (kk : Byte)
  /-- `8xy0`, R165. -/
  | registerCopy (x y : Reg)
  /-- `8xy1`, R166. -/
  | or (x y : Reg)
  /-- `8xy2`, R167. -/
  | and (x y : Reg)
  /-- `8xy3`, R168. -/
  | xor (x y : Reg)
  /-- `8xy4`, R169. -/
  | addWithCarry (x y : Reg)
  /-- `8xy5`, R170. -/
  | subtract (x y : Reg)
  /-- `8xy6`, R172. -/
  | shiftRight (x y : Reg)
  /-- `8xy7`, R171. -/
  | reverseSubtract (x y : Reg)
  /-- `8xyE`, R173. -/
  | shiftLeft (x y : Reg)
  /-- `9xy0`, R149. -/
  | skipIfNotEqualRegisters (x y : Reg)
  /-- `Annn`, R201. -/
  | loadIndex (nnn : Addr)
  /-- `Bnnn`, R145. -/
  | jumpOffRegister (nnn : Addr)
  /-- `Cxkk`, R174. -/
  | random (x : Reg) (kk : Byte)
  /-- `Dxyn`, R182. -/
  | draw (x y : Reg) (n : Height)
  /-- `Ex9E`, R191. -/
  | skipIfKeyPressed (x : Reg)
  /-- `ExA1`, R192. -/
  | skipIfKeyNotPressed (x : Reg)
  /-- `Fx07`, R194. -/
  | loadFromDelayTimer (x : Reg)
  /-- `Fx0A`, R193. -/
  | waitForKey (x : Reg)
  /-- `Fx15`, R195. -/
  | setDelayTimer (x : Reg)
  /-- `Fx18`, R196. -/
  | setSoundTimer (x : Reg)
  /-- `Fx1E`, R202. -/
  | addIndex (x : Reg)
  /-- `Fx29`, R203. -/
  | loadSpriteAddress (x : Reg)
  /-- `Fx33`, R205. -/
  | storeBcd (x : Reg)
  /-- `Fx55`, R206. -/
  | storeRegistersToMemory (x : Reg)
  /-- `Fx65`, R207. -/
  | loadRegistersFromMemory (x : Reg)
  deriving DecidableEq, Repr

/-- The name of each instruction as the opcode map spells it (R97, R103). -/
def Instr.mnemonic : Instr → String
  | .clearScreen => "clear_screen"
  | .ret => "ret"
  | .sys _ => "sys"
  | .jump _ => "jump"
  | .call _ => "call"
  | .skipIfEqualByte _ _ => "skip_if_equal_byte"
  | .skipIfNotEqualByte _ _ => "skip_if_not_equal_byte"
  | .skipIfEqualRegisters _ _ => "skip_if_equal_registers"
  | .loadLiteral _ _ => "load_literal"
  | .addLiteral _ _ => "add_literal"
  | .registerCopy _ _ => "register_copy"
  | .or _ _ => "or"
  | .and _ _ => "and"
  | .xor _ _ => "xor"
  | .addWithCarry _ _ => "add_with_carry"
  | .subtract _ _ => "subtract"
  | .shiftRight _ _ => "shift_right"
  | .reverseSubtract _ _ => "reverse_subtract"
  | .shiftLeft _ _ => "shift_left"
  | .skipIfNotEqualRegisters _ _ => "skip_if_not_equal_registers"
  | .loadIndex _ => "load_index"
  | .jumpOffRegister _ => "jump_off_register"
  | .random _ _ => "random"
  | .draw _ _ _ => "draw"
  | .skipIfKeyPressed _ => "skip_if_key_pressed"
  | .skipIfKeyNotPressed _ => "skip_if_key_not_pressed"
  | .loadFromDelayTimer _ => "load_from_delay_timer"
  | .waitForKey _ => "wait_for_key"
  | .setDelayTimer _ => "set_delay_timer"
  | .setSoundTimer _ => "set_sound_timer"
  | .addIndex _ => "add_index"
  | .loadSpriteAddress _ => "load_sprite_address"
  | .storeBcd _ => "store_bcd"
  | .storeRegistersToMemory _ => "store_registers_to_memory"
  | .loadRegistersFromMemory _ => "load_registers_from_memory"

end Sys2Proof
end

