-- ==== Sys2Proof/WellFormed.lean ====
section
/-! DEFINITION. Well-formed instructions. The field widths are the types of Syntax.lean; the one further condition of the
spec is R95: `sys` cannot name 0x0E0 or 0x0EE, because those two words are `clear_screen` and `ret`. -/

namespace Sys2Proof

/-- R95, R274: the two targets that the word of a `sys` cannot express. -/
def sysTargetExpressible (nnn : Addr) : Bool :=
  nnn != 0x0E0#12 && nnn != 0x0EE#12

/-- An instruction is well-formed when some word stands for it (R94, R95). -/
def Instr.wellFormed : Instr → Bool
  | .sys nnn => sysTargetExpressible nnn
  | .clearScreen => true
  | .ret => true
  | .jump _ => true
  | .call _ => true
  | .skipIfEqualByte _ _ => true
  | .skipIfNotEqualByte _ _ => true
  | .skipIfEqualRegisters _ _ => true
  | .loadLiteral _ _ => true
  | .addLiteral _ _ => true
  | .registerCopy _ _ => true
  | .or _ _ => true
  | .and _ _ => true
  | .xor _ _ => true
  | .addWithCarry _ _ => true
  | .subtract _ _ => true
  | .shiftRight _ _ => true
  | .reverseSubtract _ _ => true
  | .shiftLeft _ _ => true
  | .skipIfNotEqualRegisters _ _ => true
  | .loadIndex _ => true
  | .jumpOffRegister _ => true
  | .random _ _ => true
  | .draw _ _ _ => true
  | .skipIfKeyPressed _ => true
  | .skipIfKeyNotPressed _ => true
  | .loadFromDelayTimer _ => true
  | .waitForKey _ => true
  | .setDelayTimer _ => true
  | .setSoundTimer _ => true
  | .addIndex _ => true
  | .loadSpriteAddress _ => true
  | .storeBcd _ => true
  | .storeRegistersToMemory _ => true
  | .loadRegistersFromMemory _ => true

end Sys2Proof
end

