-- ==== Sys2Proof/Decode.lean ====
section
/-! DEFINITION. Decoding and encoding (spec/30_encoding.md R90 to R100, spec/20_memory.md R64). -/

namespace Sys2Proof

/-! ## Bytes and fields -/

/-- R64: the instruction word is big-endian, `op = hi * 256 + lo`. -/
def wordOfBytes (hi lo : Byte) : Word :=
  BitVec.ofNat 16 (hi.toNat * 256 + lo.toNat)

/-- R64: the byte at the lower address is bits 15 to 8 of the word. -/
def highByte (op : Word) : Byte := op.extractLsb' 8 8

/-- R64: the byte at the higher address is bits 7 to 0 of the word. -/
def lowByte (op : Word) : Byte := op.extractLsb' 0 8

/-- R91, R92: the family is `op[15:12]`. -/
def familyOf (op : Word) : BitVec 4 := op.extractLsb' 12 4

/-- R92: `x = op[11:8]`. -/
def fieldX (op : Word) : Reg := (op.extractLsb' 8 4).toFin

/-- R92: `y = op[7:4]`. -/
def fieldY (op : Word) : Reg := (op.extractLsb' 4 4).toFin

/-- R92: `n = op[3:0]`. -/
def fieldN (op : Word) : BitVec 4 := op.extractLsb' 0 4

/-- R92: `kk = op[7:0]`. -/
def fieldKK (op : Word) : Byte := op.extractLsb' 0 8

/-- R92: `nnn = op[11:0]`. -/
def fieldNNN (op : Word) : Addr := op.extractLsb' 0 12

/-! ## Decoding -/

/-- Why bytes are no instruction: one name for each row of the table of illegal words (R100), and one for a byte list
too short to hold a word (R90; a fetch always has two bytes). -/
inductive Illegal where
  /-- `5xyn` with `n != 0`. -/
  | family5Selector
  /-- `8xyn` with `n` in 0x8 to 0xD or 0xF. -/
  | family8Selector
  /-- `9xyn` with `n != 0`. -/
  | family9Selector
  /-- `Exkk` with `kk` not 0x9E or 0xA1. -/
  | familyEFunction
  /-- `Fxkk` with `kk` not one of the nine function bytes. -/
  | familyFFunction
  /-- Fewer than two bytes. -/
  | tooFewBytes
  deriving DecidableEq, Repr

/-- R94, R95, family 0: the two fixed words first, every other word is `sys`. -/
def decodeFamily0 (op : Word) : Except Illegal Instr :=
  if op = 0x00E0#16 then .ok .clearScreen
  else if op = 0x00EE#16 then .ok .ret
  else .ok (.sys (fieldNNN op))

/-- R94, family 8: selected by `op[3:0]`. -/
def decodeFamily8 (op : Word) : Except Illegal Instr :=
  match fieldN op with
  | 0x0#4 => .ok (.registerCopy (fieldX op) (fieldY op))
  | 0x1#4 => .ok (.or (fieldX op) (fieldY op))
  | 0x2#4 => .ok (.and (fieldX op) (fieldY op))
  | 0x3#4 => .ok (.xor (fieldX op) (fieldY op))
  | 0x4#4 => .ok (.addWithCarry (fieldX op) (fieldY op))
  | 0x5#4 => .ok (.subtract (fieldX op) (fieldY op))
  | 0x6#4 => .ok (.shiftRight (fieldX op) (fieldY op))
  | 0x7#4 => .ok (.reverseSubtract (fieldX op) (fieldY op))
  | 0xE#4 => .ok (.shiftLeft (fieldX op) (fieldY op))
  | _ => .error .family8Selector

/-- R94, family E: selected by the whole second byte. -/
def decodeFamilyE (op : Word) : Except Illegal Instr :=
  match fieldKK op with
  | 0x9E#8 => .ok (.skipIfKeyPressed (fieldX op))
  | 0xA1#8 => .ok (.skipIfKeyNotPressed (fieldX op))
  | _ => .error .familyEFunction

/-- R94, family F: selected by the whole second byte. -/
def decodeFamilyF (op : Word) : Except Illegal Instr :=
  match fieldKK op with
  | 0x07#8 => .ok (.loadFromDelayTimer (fieldX op))
  | 0x0A#8 => .ok (.waitForKey (fieldX op))
  | 0x15#8 => .ok (.setDelayTimer (fieldX op))
  | 0x18#8 => .ok (.setSoundTimer (fieldX op))
  | 0x1E#8 => .ok (.addIndex (fieldX op))
  | 0x29#8 => .ok (.loadSpriteAddress (fieldX op))
  | 0x33#8 => .ok (.storeBcd (fieldX op))
  | 0x55#8 => .ok (.storeRegistersToMemory (fieldX op))
  | 0x65#8 => .ok (.loadRegistersFromMemory (fieldX op))
  | _ => .error .familyFFunction

/-- R94: the decode function, total on all 65536 words. -/
def decode (op : Word) : Except Illegal Instr :=
  match familyOf op with
  | 0x0#4 => decodeFamily0 op
  | 0x1#4 => .ok (.jump (fieldNNN op))
  | 0x2#4 => .ok (.call (fieldNNN op))
  | 0x3#4 => .ok (.skipIfEqualByte (fieldX op) (fieldKK op))
  | 0x4#4 => .ok (.skipIfNotEqualByte (fieldX op) (fieldKK op))
  | 0x5#4 =>
    if fieldN op = 0#4 then .ok (.skipIfEqualRegisters (fieldX op) (fieldY op)) else .error .family5Selector
  | 0x6#4 => .ok (.loadLiteral (fieldX op) (fieldKK op))
  | 0x7#4 => .ok (.addLiteral (fieldX op) (fieldKK op))
  | 0x8#4 => decodeFamily8 op
  | 0x9#4 =>
    if fieldN op = 0#4 then .ok (.skipIfNotEqualRegisters (fieldX op) (fieldY op)) else .error .family9Selector
  | 0xA#4 => .ok (.loadIndex (fieldNNN op))
  | 0xB#4 => .ok (.jumpOffRegister (fieldNNN op))
  | 0xC#4 => .ok (.random (fieldX op) (fieldKK op))
  | 0xD#4 => .ok (.draw (fieldX op) (fieldY op) (fieldN op).toFin)
  | 0xE#4 => decodeFamilyE op
  | _ => decodeFamilyF op -- 0xF, the sixteenth and last family

/-- R90: decoding a list of bytes takes two bytes, high byte first, and leaves the rest. -/
def decodeBytes : List Byte → Except Illegal (Instr × List Byte)
  | hi :: lo :: rest => (decode (wordOfBytes hi lo)).map fun i => (i, rest)
  | [_] => .error .tooFewBytes
  | [] => .error .tooFewBytes

/-- The word whose bits are `w`, numbered as spec/opcode_table.json numbers them: bit 15 is the first character of the
row's 16-character encoding string (the table has one 16-bit word a row). Log 12. -/
def tableWord (nbits w : Nat) : Word := BitVec.ofNat 16 (w % 2 ^ nbits)

/-- The instruction the decoder reads from the bytes of a table word as the hardware stores them, high byte at the lower
address (R64). -/
def decodeTableWord (nbits w : Nat) : Option Instr :=
  match decodeBytes [highByte (tableWord nbits w), lowByte (tableWord nbits w)] with
  | .ok (i, _) => some i
  | .error _ => none

/-! ## Encoding -/

/-- Format A (R93): family, then a 12-bit address. -/
def formatA (family : Nat) (nnn : Addr) : Word :=
  BitVec.ofNat 16 (family * 0x1000 + nnn.toNat)

/-- Format RK (R93): family, `x`, then a byte; also format RF, where the byte is the function byte. -/
def formatRK (family : Nat) (x : Reg) (kk : Byte) : Word :=
  BitVec.ofNat 16 (family * 0x1000 + x.val * 0x100 + kk.toNat)

/-- Format RRN (R93): family, `x`, `y`, then a nibble; also format RR, where the nibble is the selector. -/
def formatRRN (family : Nat) (x y n : Fin 16) : Word :=
  BitVec.ofNat 16 (family * 0x1000 + x.val * 0x100 + y.val * 0x10 + n.val)

/-- The word of an instruction, from the formats of R93 and the patterns of R97. -/
def encode : Instr → Word
  | .clearScreen => 0x00E0#16
  | .ret => 0x00EE#16
  | .sys nnn => formatA 0x0 nnn
  | .jump nnn => formatA 0x1 nnn
  | .call nnn => formatA 0x2 nnn
  | .skipIfEqualByte x kk => formatRK 0x3 x kk
  | .skipIfNotEqualByte x kk => formatRK 0x4 x kk
  | .skipIfEqualRegisters x y => formatRRN 0x5 x y 0x0
  | .loadLiteral x kk => formatRK 0x6 x kk
  | .addLiteral x kk => formatRK 0x7 x kk
  | .registerCopy x y => formatRRN 0x8 x y 0x0
  | .or x y => formatRRN 0x8 x y 0x1
  | .and x y => formatRRN 0x8 x y 0x2
  | .xor x y => formatRRN 0x8 x y 0x3
  | .addWithCarry x y => formatRRN 0x8 x y 0x4
  | .subtract x y => formatRRN 0x8 x y 0x5
  | .shiftRight x y => formatRRN 0x8 x y 0x6
  | .reverseSubtract x y => formatRRN 0x8 x y 0x7
  | .shiftLeft x y => formatRRN 0x8 x y 0xE
  | .skipIfNotEqualRegisters x y => formatRRN 0x9 x y 0x0
  | .loadIndex nnn => formatA 0xA nnn
  | .jumpOffRegister nnn => formatA 0xB nnn
  | .random x kk => formatRK 0xC x kk
  | .draw x y n => formatRRN 0xD x y n
  | .skipIfKeyPressed x => formatRK 0xE x 0x9E#8
  | .skipIfKeyNotPressed x => formatRK 0xE x 0xA1#8
  | .loadFromDelayTimer x => formatRK 0xF x 0x07#8
  | .waitForKey x => formatRK 0xF x 0x0A#8
  | .setDelayTimer x => formatRK 0xF x 0x15#8
  | .setSoundTimer x => formatRK 0xF x 0x18#8
  | .addIndex x => formatRK 0xF x 0x1E#8
  | .loadSpriteAddress x => formatRK 0xF x 0x29#8
  | .storeBcd x => formatRK 0xF x 0x33#8
  | .storeRegistersToMemory x => formatRK 0xF x 0x55#8
  | .loadRegistersFromMemory x => formatRK 0xF x 0x65#8

/-- The two bytes of an instruction in memory, lower address first (R64, R106). -/
def encodeBytes (i : Instr) : List Byte := [highByte (encode i), lowByte (encode i)]

/-! ## The opcode map -/

/-- A row of the opcode map (R97): a word is the instruction when `op & mask = pattern` and it is none of `except`. -/
structure OpcodeRow where
  name : String
  pattern : Word
  mask : Word
  except : List Word
  deriving DecidableEq, Repr

/-- R97: when a row of the map selects a word. -/
def OpcodeRow.selects (r : OpcodeRow) (op : Word) : Bool :=
  op &&& r.mask == r.pattern && !r.except.contains op

/-- The 35 rows of the opcode map, in the order of R97. -/
def opcodeMap : List OpcodeRow :=
  [⟨"sys", 0x0000, 0xF000, [0x00E0, 0x00EE]⟩,
   ⟨"clear_screen", 0x00E0, 0xFFFF, []⟩,
   ⟨"ret", 0x00EE, 0xFFFF, []⟩,
   ⟨"jump", 0x1000, 0xF000, []⟩,
   ⟨"call", 0x2000, 0xF000, []⟩,
   ⟨"skip_if_equal_byte", 0x3000, 0xF000, []⟩,
   ⟨"skip_if_not_equal_byte", 0x4000, 0xF000, []⟩,
   ⟨"skip_if_equal_registers", 0x5000, 0xF00F, []⟩,
   ⟨"load_literal", 0x6000, 0xF000, []⟩,
   ⟨"add_literal", 0x7000, 0xF000, []⟩,
   ⟨"register_copy", 0x8000, 0xF00F, []⟩,
   ⟨"or", 0x8001, 0xF00F, []⟩,
   ⟨"and", 0x8002, 0xF00F, []⟩,
   ⟨"xor", 0x8003, 0xF00F, []⟩,
   ⟨"add_with_carry", 0x8004, 0xF00F, []⟩,
   ⟨"subtract", 0x8005, 0xF00F, []⟩,
   ⟨"shift_right", 0x8006, 0xF00F, []⟩,
   ⟨"reverse_subtract", 0x8007, 0xF00F, []⟩] ++
  [⟨"shift_left", 0x800E, 0xF00F, []⟩,
   ⟨"skip_if_not_equal_registers", 0x9000, 0xF00F, []⟩,
   ⟨"load_index", 0xA000, 0xF000, []⟩,
   ⟨"jump_off_register", 0xB000, 0xF000, []⟩,
   ⟨"random", 0xC000, 0xF000, []⟩,
   ⟨"draw", 0xD000, 0xF000, []⟩,
   ⟨"skip_if_key_pressed", 0xE09E, 0xF0FF, []⟩,
   ⟨"skip_if_key_not_pressed", 0xE0A1, 0xF0FF, []⟩,
   ⟨"load_from_delay_timer", 0xF007, 0xF0FF, []⟩,
   ⟨"wait_for_key", 0xF00A, 0xF0FF, []⟩,
   ⟨"set_delay_timer", 0xF015, 0xF0FF, []⟩,
   ⟨"set_sound_timer", 0xF018, 0xF0FF, []⟩,
   ⟨"add_index", 0xF01E, 0xF0FF, []⟩,
   ⟨"load_sprite_address", 0xF029, 0xF0FF, []⟩,
   ⟨"store_bcd", 0xF033, 0xF0FF, []⟩,
   ⟨"store_registers_to_memory", 0xF055, 0xF0FF, []⟩,
   ⟨"load_registers_from_memory", 0xF065, 0xF0FF, []⟩]

end Sys2Proof
end

