-- ==== Sys2Proof/Config.lean ====
section
/-! DEFINITION. What an implementation fixes and the one free value (spec/00_scope.md R5).
The record `Config` holds the parameters of R5 that are values; the values this hardware gives them are
`Sys2Proof.Machine.params` in Machine/Params.lean. The parameters of R5 that are widths and counts of cells are the
types of Word.lean and of the fields of State: `ADDR_BITS`, `I_BITS`, `PC_BITS` (12) are the reduction modulo `memSize`
and the mask 0xFFF; `NREGS`, `REG_BITS`, `FLAG_REG`, `I_CELL_BITS`, `PC_CELL_BITS`, `STACK_DEPTH`, `STACK_SLOT_BITS`,
`SP_RANGE`, `TIMER_BITS`, `NKEYS` are the types of the fields; `INSTR_BYTES` and `N_INSTR` are facts of Decode.lean and
Syntax.lean. `RANDOM` is `Config.draw8` below. `END_OF_RUN` is `Machine.State.EndOfRun` in Safety.lean. -/

namespace Sys2Proof

/-- The parameters of R5 that a rule of the spec computes with. -/
structure Config where
  /-- `MEM_SIZE`: the number of bytes of memory; every address is reduced modulo it (R20, R61). -/
  memSize : Nat
  /-- `PC_RESET`: the value of PC after reset (R24, R40). -/
  pcReset : Word
  /-- `GLYPH_TABLE`, with `GLYPH_BASE` = 0: the bytes of memory from address 0x000 after reset (R35, R36). -/
  glyphTable : Vector Byte 80
  /-- `GLYPH_STRIDE`: bytes per glyph (R35, R203). -/
  glyphStride : Nat
  /-- `FB_W`: frame buffer width in pixels, the modulus of the horizontal coordinate (R180). -/
  fbWidth : Nat
  /-- `FB_H`: frame buffer height in pixels, the modulus of the vertical coordinate (R180). -/
  fbHeight : Nat
  /-- `STEP_HZ`: OPEN, no rule depends on it (R276; 92_eei_decisions.md D28). -/
  stepHz : Option Nat
  /-- `TIMER_HZ`: OPEN, no rule depends on it (R217, R276; 92_eei_decisions.md D28). -/
  timerHz : Option Nat
  deriving DecidableEq, Repr

/-- `RANDOM`, the source of `draw8()` (R34, R174; 92_eei_decisions.md D18): FREE VALUE. The k-th execution of `random`
since the machine began to exist consumes `Config.draw8 k`. The constant has no body, so no proof can use what it is,
and a claim that holds of it holds for every sequence of draws. Log 1. -/
opaque Config.draw8 : Nat → Byte

end Sys2Proof
end

