-- ==== Sys2Proof/Machine/Params.lean ====
section
/-! DEFINITION. The values this hardware gives its parameters (spec/00_scope.md R5, spec/10_state.md R36). -/

namespace Sys2Proof.Machine

/-- The default GLYPH_TABLE of R36: sixteen glyphs of five bytes, top row first, one line per hexadecimal digit.
PRESUMED by the spec itself (general knowledge, 93_implementation_defined.md G4; 92_eei_decisions.md D19). Log 9. -/
def glyphTable : Vector Byte 80 :=
  #v[0xF0, 0x90, 0x90, 0x90, 0xF0,
     0x20, 0x60, 0x20, 0x20, 0x70,
     0xF0, 0x10, 0xF0, 0x80, 0xF0,
     0xF0, 0x10, 0xF0, 0x10, 0xF0,
     0x90, 0x90, 0xF0, 0x10, 0x10,
     0xF0, 0x80, 0xF0, 0x10, 0xF0,
     0xF0, 0x80, 0xF0, 0x90, 0xF0,
     0xF0, 0x10, 0x20, 0x40, 0x40,
     0xF0, 0x90, 0xF0, 0x90, 0xF0,
     0xF0, 0x90, 0xF0, 0x10, 0xF0,
     0xF0, 0x90, 0xF0, 0x90, 0x90,
     0xE0, 0x90, 0xE0, 0x90, 0xE0,
     0xF0, 0x80, 0x80, 0x80, 0xF0,
     0xE0, 0x90, 0x90, 0x90, 0xE0,
     0xF0, 0x80, 0xF0, 0x80, 0xF0,
     0xF0, 0x80, 0xF0, 0x80, 0x80]

/-- The configuration record of R5 with this hardware's values. -/
def params : Config where
  memSize := 4096
  pcReset := 0x200
  glyphTable := glyphTable
  glyphStride := 5
  fbWidth := 64
  fbHeight := 32
  stepHz := none
  timerHz := none

end Sys2Proof.Machine
end

