-- ==== Sys2Proof/Machine/State.lean ====
section
/-! DEFINITION. The state of the core: every cell of spec/10_state.md R20 to R32 and, beside them, the counter that names
the next free draw (R34). The spec has no other state (R39). -/

namespace Sys2Proof.Machine

/-- Memory (R20): the cells whose contents differ from what they hold after reset, as address and byte pairs in the
canonical form of `Memory.wf` (Machine/Memory.lean). Log 5. -/
abbrev Memory := List Host.Cell

/-- The frame buffer (R30): 32 rows, row 0 at the top, each of 64 one-bit pixels; bit `px` of row `py` is the pixel
`FB[px, py]`. Log 6. -/
abbrev FrameBuffer := Vector (BitVec 64) 32

/-- The causes that the latch FAULT can hold (R32, R232). They are no ends of a run: a step that raises one answers a
next state in which the cause is latched (R231). Log 4. -/
inductive FaultCause where
  /-- Code 1, raised by the dispatcher for a word that is no instruction (R125). -/
  | illegalOpcode
  /-- Code 2, raised by `call` at `SP = 16` (R143). -/
  | stackOverflow
  /-- Code 3, raised by `ret` at `SP = 0` (R144). -/
  | stackUnderflow
  /-- Code 4, raised by the two key skips at `V[x] > 15` (R191, R192). -/
  | keyIndexRange
  deriving DecidableEq, Repr

/-- The state of the core. -/
structure State where
  /-- `Mem` (R20). -/
  mem : Memory
  /-- `V[0]` to `V[15]`; `V[15]` is VF (R21, R22). -/
  v : Vector Byte 16
  /-- `I`, a 16-bit cell (R23). -/
  i : Word
  /-- `PC`, a 16-bit cell (R24). -/
  pc : Word
  /-- `STACK[0]` to `STACK[15]`, 16-bit slots (R25). -/
  stack : Vector Word 16
  /-- `SP`, 0 to 16 (R26). -/
  sp : Fin 17
  /-- `DT` (R27). -/
  dt : Byte
  /-- `ST` (R28). -/
  st : Byte
  /-- `KEY[0]` to `KEY[15]` (R29). -/
  keys : Vector Bool 16
  /-- `FB` (R30). -/
  fb : FrameBuffer
  /-- `WAITING` (R31). -/
  waiting : Bool
  /-- `WAITREG` (R31). -/
  waitReg : Reg
  /-- `FAULT` (R32); `none` is code 0. -/
  fault : Option FaultCause
  /-- The model's own: how many draws `random` has consumed; the next is `Config.draw8 drawCount` (R34). Log 1. -/
  drawCount : Nat
  deriving DecidableEq, Repr

/-- The ways a step ends the run. This hardware has none: `step` is total on states (R120) and each of its four faults is
a next state (R231), so the type has no constructor, nobody raises one, and that is safe. Log 4. -/
inductive Fault where
  deriving DecidableEq, Repr

/-- The instructions the model gives no meaning. -/
inductive Refusal where
  /-- Raised by `exec` for an instruction still to be modelled, named by its mnemonic; safe. No arm of Dispatch.lean
  raises it. -/
  | notModelled (mnemonic : String)
  deriving DecidableEq, Repr

/-- What executing an instruction or a step answers. -/
abbrev Result := Host.Outcome State Fault Refusal

/-- The state after reset and at construction (R40, R261, R262). Memory lists no cell, because an unlisted cell reads as
its reset contents. `drawCount` is no cell of the spec: its value 0 is a DESIGN CHOICE, log 1. -/
def State.reset : State where
  mem := []
  v := Vector.replicate 16 0x00
  i := 0x000
  pc := params.pcReset
  stack := Vector.replicate 16 0x0000
  sp := 0
  dt := 0x00
  st := 0x00
  keys := Vector.replicate 16 false
  fb := Vector.replicate 32 0
  waiting := false
  waitReg := 0
  fault := none
  drawCount := 0

end Sys2Proof.Machine
end

