-- ==== Sys2Proof/Machine/Memory.lean ====
section
/-! DEFINITION. Memory as a list of cells in canonical form (spec/20_memory.md R60 to R62, R68). -/

namespace Sys2Proof.Machine

/-- What an address that nothing has written reads as: its reset contents, the glyph table at 0x000 to 0x04F and 0x00
elsewhere (R40, R35, R262). -/
def Memory.unlisted (a : Nat) : Byte := params.glyphTable.toList.getD a 0x00

/-- The contents of the cell at address `a`. -/
def Memory.get : Memory → Nat → Byte
  | [], a => Memory.unlisted a
  | (b, w) :: m, a => if a = b then w else Memory.get m a

/-- Puts the byte `v` in front of the cells `m`, unless an unlisted cell reads as `v` already. -/
def Memory.putFront (a : Nat) (v : Byte) (m : Memory) : Memory :=
  if v = Memory.unlisted a then m else (a, v) :: m

/-- Writes the byte `v` at address `a`, keeping the canonical form. -/
def Memory.set : Memory → Nat → Byte → Memory
  | [], a, v => Memory.putFront a v []
  | (b, w) :: m, a, v =>
    if a < b then Memory.putFront a v ((b, w) :: m)
    else if a = b then Memory.putFront a v m
    else (b, w) :: Memory.set m a v

/-- The canonical form of cells whose addresses are all at least `lo`: addresses strictly rising and inside the address
space, no byte equal to what an unlisted address reads as. -/
def Memory.wfFrom (lo : Nat) : Memory → Bool
  | [] => true
  | (a, v) :: m =>
    decide (lo ≤ a) && decide (a < params.memSize) && (v != Memory.unlisted a) && Memory.wfFrom (a + 1) m

/-- The canonical form: memories that read alike are the same list. -/
def Memory.wf (m : Memory) : Bool := Memory.wfFrom 0 m

/-- The memory whose cells from address `a` upwards hold the bytes of a list, in canonical form (R211). -/
def Memory.ofBytes (a : Nat) : List Byte → Memory
  | [] => []
  | b :: bs => Memory.putFront a b (Memory.ofBytes (a + 1) bs)

/-- R61: the address decoder, `addr & 0xFFF = addr mod 4096`. -/
def maskAddr (addr : Nat) : Nat := addr % params.memSize

/-- R62: `MemRead(addr, 1)`. -/
def State.memRead (s : State) (addr : Nat) : Byte := s.mem.get (maskAddr addr)

/-- R62: `MemWrite(addr, 1, v)`. -/
def State.memWrite (s : State) (addr : Nat) (v : Byte) : State :=
  { s with mem := s.mem.set (maskAddr addr) v }

/-- R62, R66: single-byte writes of a list of bytes at ascending addresses from `addr`. -/
def State.memWriteBytes (s : State) (addr : Nat) : List Byte → State
  | [] => s
  | b :: bs => (s.memWrite addr b).memWriteBytes (addr + 1) bs

/-- R63, R64, R123: `Fetch(PC)`, the big-endian word at PC. -/
def State.fetch (s : State) : Word :=
  wordOfBytes (s.memRead s.pc.toNat) (s.memRead (s.pc.toNat + 1))

end Sys2Proof.Machine
end

