-- ==== Sys2Proof/Machine/Ops.lean ====
section
/-! DEFINITION. The named operations over the registers, the program counter, the call stack, the keypad, the frame
buffer and the fault latch. -/

namespace Sys2Proof.Machine

/-! ## General registers -/

/-- R8, R21: `V[x]`. -/
def State.reg (s : State) (x : Reg) : Byte := s.v[x]

/-- R8, R21: `V[x] <- w`. -/
def State.setReg (s : State) (x : Reg) (w : Byte) : State := { s with v := s.v.set x w }

/-! ## Index register and program counter: every write is reduced `& 0xFFF` (R23, R24; D4) -/

/-- R23, R24: reduction of a 16-bit value to 12 bits. -/
def mask12 (w : Word) : Word := w &&& 0x0FFF#16

/-- R23: `I <- w & 0xFFF`. -/
def State.setIndex (s : State) (w : Word) : State := { s with i := mask12 w }

/-- R8: `NEXT = (PC + 2) & 0xFFF`. -/
def State.nextPc (s : State) : Word := mask12 (s.pc + 2)

/-- R8: `SKIP = (PC + 4) & 0xFFF`. -/
def State.skipPc (s : State) : Word := mask12 (s.pc + 4)

/-- R24, R140: `PC <- target & 0xFFF`. -/
def State.setPc (s : State) (target : Word) : State := { s with pc := mask12 target }

/-- R127: `PC <- NEXT`. -/
def State.advance (s : State) : State := { s with pc := s.nextPc }

/-- R127: `PC <- SKIP` when the condition holds, `PC <- NEXT` otherwise. -/
def State.skipIf (s : State) (c : Bool) : State := { s with pc := if c then s.skipPc else s.nextPc }

/-! ## Taking a fault, the hardware's only exception (60_exceptions.md) -/

/-- R231, R235: `raise <Fault>` ends the step with the cause latched in FAULT and every other cell unchanged; there is
no handler, no saved register and no return (R235, R236). -/
def raise (c : FaultCause) (s : State) : Result := .next { s with fault := some c }

/-- R32, R232: the 3-bit code of the latch. -/
def faultCode : Option FaultCause → BitVec 3
  | none => 0
  | some .illegalOpcode => 1
  | some .stackOverflow => 2
  | some .stackUnderflow => 3
  | some .keyIndexRange => 4

/-! ## Call stack -/

/-- R26, R143: `STACK[SP] <- w; SP <- SP + 1`, or nothing when the stack is full. -/
def State.push (s : State) (w : Word) : Option State :=
  if h : s.sp.val < 16 then
    some { s with stack := s.stack.set s.sp.val w, sp := ⟨s.sp.val + 1, by omega⟩ }
  else none

/-- R26, R144: `SP <- SP - 1` and the slot it then names, or nothing when the stack is empty; the slot keeps its value
(R25; D29). -/
def State.pop (s : State) : Option (Word × State) :=
  if s.sp.val = 0 then none
  else some (s.stack[s.sp.val - 1], { s with sp := ⟨s.sp.val - 1, by omega⟩ })

/-! ## Keypad -/

/-- R29: `KEY[k]`. -/
def State.key (s : State) (k : Key) : Bool := s.keys[k]

/-- R122: the least key that is down, if some key is down. -/
def State.firstKey (s : State) : Option Key := (List.finRange 16).find? fun k => s.key k

/-- R122: a suspended step. If some key is down, the least index goes to `V[WAITREG]` and the suspension ends; else
nothing changes. -/
def State.keyWaitCheck (s : State) : State :=
  match s.firstKey with
  | none => s
  | some k => { s.setReg s.waitReg (BitVec.ofNat 8 k.val) with waiting := false }

/-! ## Frame buffer -/

/-- R30: `FB[px, py]`. -/
def FrameBuffer.pixel (fb : FrameBuffer) (px : Col) (py : Row) : Bool := fb[py].getLsbD px.val

/-- R182: `FB[px, py] <- FB[px, py] ^ 1`. -/
def FrameBuffer.flip (fb : FrameBuffer) (px : Col) (py : Row) : FrameBuffer :=
  fb.set py (fb[py] ^^^ BitVec.twoPow 64 px.val)

/-- R181: every pixel 0. -/
def FrameBuffer.clear : FrameBuffer := Vector.replicate 32 0

/-! ## The random source -/

/-- R34: one draw has been consumed. Log 1. -/
def State.countDraw (s : State) : State := { s with drawCount := s.drawCount + 1 }

end Sys2Proof.Machine
end

