-- ==== Sys2Proof/Machine/Flags.lean ====
section
/-! DEFINITION. The flag VF (spec/10_state.md R22, spec/42_alu.md R161, R162). -/

namespace Sys2Proof.Machine

/-- R162: a flag is always exactly 0x00 or 0x01. -/
def flagByte (c : Bool) : Byte := if c then 0x01 else 0x00

/-- R22: `VF <- flag`. -/
def State.setFlag (s : State) (c : Bool) : State := s.setReg flagReg (flagByte c)

/-- R161: the result to Vx first, the flag to VF second, so that VF ends holding the flag when `x = 0xF`. -/
def State.setResultAndFlag (s : State) (x : Reg) (w : Byte) (c : Bool) : State := (s.setReg x w).setFlag c

/-- R162, R169: the ninth bit of the exact sum. -/
def carryOut (a b : Byte) : Bool := decide (a.toNat + b.toNat > 255)

/-- R162, R170, R171: no borrow occurred in `a - b`. -/
def noBorrow (a b : Byte) : Bool := decide (a.toNat ≥ b.toNat)

/-- R172: the bit that a right shift puts out. -/
def shiftedOutRight (a : Byte) : Bool := a.getLsbD 0

/-- R173: the bit that a left shift puts out. -/
def shiftedOutLeft (a : Byte) : Bool := a.getLsbD 7

end Sys2Proof.Machine
end

