-- ==== Sys2Proof/Machine/Operands.lean ====
section
/-! DEFINITION. The operand forms of the instructions (spec/30_encoding.md R96, spec/45_memory_block.md R200,
spec/44_input_timers.md R191, spec/43_draw.md R180). -/

namespace Sys2Proof.Machine

/-- R96: a 12-bit address literal, zero-extended to the 16-bit cells of PC and I. -/
def addrLiteral (nnn : Addr) : Word := nnn.setWidth 16

/-- R8 `zext`: a register value zero-extended to 16 bits. -/
def zextByte (b : Byte) : Word := b.setWidth 16

/-- R200: the address `I + k` of the k-th byte of an operation, before the address decoder reduces it (R61). -/
def State.indexed (s : State) (k : Nat) : Nat := s.i.toNat + k

/-- R145: the sum `V0 + nnn`, before its reduction to 12 bits. -/
def State.offRegister (s : State) (nnn : Addr) : Word := zextByte (s.reg 0) + addrLiteral nnn

/-- R202: the sum `I + V[x]`, before its reduction to 12 bits. -/
def State.indexSum (s : State) (x : Reg) : Word := s.i + zextByte (s.reg x)

/-- R203: the product `V[x] * 5`. -/
def State.glyphAddr (s : State) (x : Reg) : Word := zextByte (s.reg x) * BitVec.ofNat 16 params.glyphStride

/-- R191: a register value as a key index, if it is one. -/
def keyIndex (b : Byte) : Option Key :=
  if h : b.toNat < 16 then some ⟨b.toNat, h⟩ else none

/-- R182: the column of sprite column `c`, `(vx + c) mod 64`. -/
def spriteCol (vx : Byte) (c : Nat) : Col := ⟨(vx.toNat + c) % params.fbWidth, Nat.mod_lt _ (by decide)⟩

/-- R182: the row of sprite row `r`, `(vy + r) mod 32`. -/
def spriteRow (vy : Byte) (r : Nat) : Row := ⟨(vy.toNat + r) % params.fbHeight, Nat.mod_lt _ (by decide)⟩

/-- R180, R182: bit `c` of a sprite byte, most significant first, `b[7 - c]`. -/
def spriteBit (b : Byte) (c : Nat) : Bool := b.getLsbD (7 - c)

/-- R205: the three decimal digits of a value: hundreds, tens, ones, one byte each. -/
def bcdDigits (b : Byte) : List Byte :=
  [BitVec.ofNat 8 (b.toNat / 100), BitVec.ofNat 8 (b.toNat / 10 % 10), BitVec.ofNat 8 (b.toNat % 10)]

end Sys2Proof.Machine
end

