-- ==== Sys2Proof/Machine/Alu.lean ====
section
/-! DEFINITION. The ALU family (spec/42_alu.md). Every operand is read from the state at the start of the step (R160). -/

namespace Sys2Proof.Machine

/-- An ALU instruction that writes no flag: `V[x] <- w; PC <- NEXT`. -/
def writeReg (x : Reg) (w : Byte) (s : State) : Result := .next (s.setReg x w).advance

/-- An ALU instruction that writes the flag: `V[x] <- w; VF <- c; PC <- NEXT` (R161). -/
def writeRegAndFlag (x : Reg) (w : Byte) (c : Bool) (s : State) : Result := .next (s.setResultAndFlag x w c).advance

/-- `load_literal Vx, kk` (R163). -/
def execLoadLiteral (x : Reg) (kk : Byte) (s : State) : Result := writeReg x kk s

/-- `add_literal Vx, kk` (R164): modulo 256, no flag. -/
def execAddLiteral (x : Reg) (kk : Byte) (s : State) : Result := writeReg x (s.reg x + kk) s

/-- `register_copy Vx, Vy` (R165). -/
def execRegisterCopy (x y : Reg) (s : State) : Result := writeReg x (s.reg y) s

/-- `or Vx, Vy` (R166): VF is not cleared. -/
def execOr (x y : Reg) (s : State) : Result := writeReg x (s.reg x ||| s.reg y) s

/-- `and Vx, Vy` (R167): VF is not cleared. -/
def execAnd (x y : Reg) (s : State) : Result := writeReg x (s.reg x &&& s.reg y) s

/-- `xor Vx, Vy` (R168): VF is not cleared. -/
def execXor (x y : Reg) (s : State) : Result := writeReg x (s.reg x ^^^ s.reg y) s

/-- `add_with_carry Vx, Vy` (R169): no carry in. -/
def execAddWithCarry (x y : Reg) (s : State) : Result :=
  writeRegAndFlag x (s.reg x + s.reg y) (carryOut (s.reg x) (s.reg y)) s

/-- `subtract Vx, Vy` (R170): Vx - Vy. -/
def execSubtract (x y : Reg) (s : State) : Result :=
  writeRegAndFlag x (s.reg x - s.reg y) (noBorrow (s.reg x) (s.reg y)) s

/-- `reverse_subtract Vx, Vy` (R171): Vy - Vx. -/
def execReverseSubtract (x y : Reg) (s : State) : Result :=
  writeRegAndFlag x (s.reg y - s.reg x) (noBorrow (s.reg y) (s.reg x)) s

/-- `shift_right Vx` (R172): Vx in place; the field `y` is ignored (D9). Log 16. -/
def execShiftRight (x _y : Reg) (s : State) : Result :=
  writeRegAndFlag x (s.reg x >>> 1) (shiftedOutRight (s.reg x)) s

/-- `shift_left Vx` (R173): Vx in place; the field `y` is ignored (D9). Log 16. -/
def execShiftLeft (x _y : Reg) (s : State) : Result :=
  writeRegAndFlag x (s.reg x <<< 1) (shiftedOutLeft (s.reg x)) s

/-- The effect of `random` for the draw `r` (R174): `V[x] <- r & kk; PC <- NEXT`. -/
def randomWith (r : Byte) (x : Reg) (kk : Byte) (s : State) : Result := writeReg x (r &&& kk) s.countDraw

/-- `random Vx, kk` (R174) with the next free draw (R34). Log 1. -/
def execRandom (x : Reg) (kk : Byte) (s : State) : Result := randomWith (Config.draw8 s.drawCount) x kk s

end Sys2Proof.Machine
end

