-- ==== Sys2Proof/Machine/ControlFlow.lean ====
section
/-! DEFINITION. The control-flow instructions (spec/41_control_flow.md). -/

namespace Sys2Proof.Machine

/-- `sys nnn` (R141): an unconditional jump. -/
def execSys (nnn : Addr) (s : State) : Result := .next (s.setPc (addrLiteral nnn))

/-- `jump nnn` (R142). -/
def execJump (nnn : Addr) (s : State) : Result := .next (s.setPc (addrLiteral nnn))

/-- `call nnn` (R143). -/
def execCall (nnn : Addr) (s : State) : Result :=
  match s.push s.nextPc with
  | some t => .next (t.setPc (addrLiteral nnn))
  | none => raise .stackOverflow s

/-- `ret` (R144). -/
def execRet (s : State) : Result :=
  match s.pop with
  | some (target, t) => .next (t.setPc target)
  | none => raise .stackUnderflow s

/-- `jump_off_register nnn` (R145). -/
def execJumpOffRegister (nnn : Addr) (s : State) : Result := .next (s.setPc (s.offRegister nnn))

/-- `skip_if_equal_byte Vx, kk` (R146). -/
def execSkipIfEqualByte (x : Reg) (kk : Byte) (s : State) : Result := .next (s.skipIf (s.reg x == kk))

/-- `skip_if_not_equal_byte Vx, kk` (R147). -/
def execSkipIfNotEqualByte (x : Reg) (kk : Byte) (s : State) : Result := .next (s.skipIf (s.reg x != kk))

/-- `skip_if_equal_registers Vx, Vy` (R148). -/
def execSkipIfEqualRegisters (x y : Reg) (s : State) : Result := .next (s.skipIf (s.reg x == s.reg y))

/-- `skip_if_not_equal_registers Vx, Vy` (R149). -/
def execSkipIfNotEqualRegisters (x y : Reg) (s : State) : Result := .next (s.skipIf (s.reg x != s.reg y))

end Sys2Proof.Machine
end

