-- ==== Sys2Proof/Machine/Draw.lean ====
section
/-! DEFINITION. The frame buffer instructions (spec/43_draw.md). -/

namespace Sys2Proof.Machine

/-- `clear_screen` (R181). -/
def execClearScreen (s : State) : Result := .next { s with fb := FrameBuffer.clear }.advance

/-- What a draw has built so far: the frame buffer, and whether a collision has occurred (R182). -/
abbrev Drawing := FrameBuffer × Bool

/-- R182: one sprite bit at one pixel. A 0 leaves the pixel untouched; a 1 flips it, and a pixel that was 1 is a
collision. -/
def drawBit (bit : Bool) (px : Col) (py : Row) (d : Drawing) : Drawing :=
  if bit then (d.1.flip px py, d.2 || d.1.pixel px py) else d

/-- R182: the first `n` columns of a row whose sprite byte is `b`, left to right. -/
def drawCols (b vx : Byte) (py : Row) : Nat → Drawing → Drawing
  | 0, d => d
  | c + 1, d => drawBit (spriteBit b c) (spriteCol vx c) py (drawCols b vx py c d)

/-- R182: the first `n` rows of the sprite at I, top to bottom, for the sampled coordinates `vx` and `vy`. -/
def drawRows (s : State) (vx vy : Byte) : Nat → Drawing → Drawing
  | 0, d => d
  | r + 1, d => drawCols (s.memRead (s.indexed r)) vx (spriteRow vy r) 8 (drawRows s vx vy r d)

/-- R182: the drawing of a sprite of `n` rows at coordinates `vx`, `vy`. -/
def drawSprite (s : State) (vx vy : Byte) (n : Nat) : Drawing := drawRows s vx vy n (s.fb, false)

/-- `draw Vx, Vy, n` (R182, R183). The coordinates are sampled from the state at the start of the step (D13). -/
def execDraw (x y : Reg) (n : Height) (s : State) : Result :=
  let d := drawSprite s (s.reg x) (s.reg y) n.val
  .next ({ s with fb := d.1 }.setFlag d.2).advance

end Sys2Proof.Machine
end

