-- ==== Sys2Proof/Machine/InputTimers.lean ====
section
/-! DEFINITION. The input and timer instructions (spec/44_input_timers.md). -/

namespace Sys2Proof.Machine

/-- R191, R192: a skip on the key that Vx names, `KeyIndexRange` when Vx names none. -/
def keySkip (x : Reg) (skipOn : Bool → Bool) (s : State) : Result :=
  match keyIndex (s.reg x) with
  | some k => .next (s.skipIf (skipOn (s.key k)))
  | none => raise .keyIndexRange s

/-- `skip_if_key_pressed Vx` (R191). -/
def execSkipIfKeyPressed (x : Reg) (s : State) : Result := keySkip x (fun down => down) s

/-- `skip_if_key_not_pressed Vx` (R192). -/
def execSkipIfKeyNotPressed (x : Reg) (s : State) : Result := keySkip x (fun down => !down) s

/-- `wait_for_key Vx` (R193): the executing step does not look at the keypad. -/
def execWaitForKey (x : Reg) (s : State) : Result := .next { s with waiting := true, waitReg := x }.advance

/-- `load_from_delay_timer Vx` (R194). -/
def execLoadFromDelayTimer (x : Reg) (s : State) : Result := .next (s.setReg x s.dt).advance

/-- `set_delay_timer Vx` (R195). -/
def execSetDelayTimer (x : Reg) (s : State) : Result := .next { s with dt := s.reg x }.advance

/-- `set_sound_timer Vx` (R196). -/
def execSetSoundTimer (x : Reg) (s : State) : Result := .next { s with st := s.reg x }.advance

end Sys2Proof.Machine
end

