-- ==== Sys2Proof/Machine/MemoryBlock.lean ====
section
/-! DEFINITION. The index register, BCD and block-copy instructions (spec/45_memory_block.md). I is changed by the first
three only (R200; D10). -/

namespace Sys2Proof.Machine

/-- `load_index nnn` (R201). -/
def execLoadIndex (nnn : Addr) (s : State) : Result := .next (s.setIndex (addrLiteral nnn)).advance

/-- `add_index Vx` (R202): no overflow flag. -/
def execAddIndex (x : Reg) (s : State) : Result := .next (s.setIndex (s.indexSum x)).advance

/-- `load_sprite_address Vx` (R203): the whole register value is multiplied (D20). -/
def execLoadSpriteAddress (x : Reg) (s : State) : Result := .next (s.setIndex (s.glyphAddr x)).advance

/-- `store_bcd Vx` (R205). -/
def execStoreBcd (x : Reg) (s : State) : Result :=
  .next (s.memWriteBytes (s.indexed 0) (bcdDigits (s.reg x))).advance

/-- R206: the registers V0 to Vx, in ascending order. -/
def State.regsUpTo (s : State) (x : Reg) : List Byte := s.v.toList.take (x.val + 1)

/-- `store_registers_to_memory Vx` (R206). -/
def execStoreRegistersToMemory (x : Reg) (s : State) : Result :=
  .next (s.memWriteBytes (s.indexed 0) (s.regsUpTo x)).advance

/-- R207: `for i = 0 to n - 1: V[i] <- MemRead(I + i, 1)`. -/
def State.loadRegs (s : State) : Nat → State
  | 0 => s
  | n + 1 => (s.loadRegs n).setReg (Fin.ofNat 16 n) (s.memRead (s.indexed n))

/-- `load_registers_from_memory Vx` (R207). -/
def execLoadRegistersFromMemory (x : Reg) (s : State) : Result := .next (s.loadRegs (x.val + 1)).advance

end Sys2Proof.Machine
end

