-- ==== Sys2Proof/Machine/Dispatch.lean ====
section
/-! DEFINITION. The dispatcher's last stage (spec/40_dispatcher.md R126): one arm per instruction. -/

namespace Sys2Proof.Machine

/-- R126: executes a decoded instruction as its rule says. -/
def exec (i : Instr) (s : State) : Host.Outcome State Fault Refusal :=
  match i with
  | .clearScreen => Sys2Proof.Machine.execClearScreen s
  | .ret => Sys2Proof.Machine.execRet s
  | .sys nnn => Sys2Proof.Machine.execSys nnn s
  | .jump nnn => Sys2Proof.Machine.execJump nnn s
  | .call nnn => Sys2Proof.Machine.execCall nnn s
  | .skipIfEqualByte x kk => Sys2Proof.Machine.execSkipIfEqualByte x kk s
  | .skipIfNotEqualByte x kk => Sys2Proof.Machine.execSkipIfNotEqualByte x kk s
  | .skipIfEqualRegisters x y => Sys2Proof.Machine.execSkipIfEqualRegisters x y s
  | .loadLiteral x kk => Sys2Proof.Machine.execLoadLiteral x kk s
  | .addLiteral x kk => Sys2Proof.Machine.execAddLiteral x kk s
  | .registerCopy x y => Sys2Proof.Machine.execRegisterCopy x y s
  | .or x y => Sys2Proof.Machine.execOr x y s
  | .and x y => Sys2Proof.Machine.execAnd x y s
  | .xor x y => Sys2Proof.Machine.execXor x y s
  | .addWithCarry x y => Sys2Proof.Machine.execAddWithCarry x y s
  | .subtract x y => Sys2Proof.Machine.execSubtract x y s
  | .shiftRight x y => Sys2Proof.Machine.execShiftRight x y s
  | .reverseSubtract x y => Sys2Proof.Machine.execReverseSubtract x y s
  | .shiftLeft x y => Sys2Proof.Machine.execShiftLeft x y s
  | .skipIfNotEqualRegisters x y => Sys2Proof.Machine.execSkipIfNotEqualRegisters x y s
  | .loadIndex nnn => Sys2Proof.Machine.execLoadIndex nnn s
  | .jumpOffRegister nnn => Sys2Proof.Machine.execJumpOffRegister nnn s
  | .random x kk => Sys2Proof.Machine.execRandom x kk s
  | .draw x y n => Sys2Proof.Machine.execDraw x y n s
  | .skipIfKeyPressed x => Sys2Proof.Machine.execSkipIfKeyPressed x s
  | .skipIfKeyNotPressed x => Sys2Proof.Machine.execSkipIfKeyNotPressed x s
  | .loadFromDelayTimer x => Sys2Proof.Machine.execLoadFromDelayTimer x s
  | .waitForKey x => Sys2Proof.Machine.execWaitForKey x s
  | .setDelayTimer x => Sys2Proof.Machine.execSetDelayTimer x s
  | .setSoundTimer x => Sys2Proof.Machine.execSetSoundTimer x s
  | .addIndex x => Sys2Proof.Machine.execAddIndex x s
  | .loadSpriteAddress x => Sys2Proof.Machine.execLoadSpriteAddress x s
  | .storeBcd x => Sys2Proof.Machine.execStoreBcd x s
  | .storeRegistersToMemory x => Sys2Proof.Machine.execStoreRegistersToMemory x s
  | .loadRegistersFromMemory x => Sys2Proof.Machine.execLoadRegistersFromMemory x s

end Sys2Proof.Machine
end

