-- ==== Sys2Proof/Machine/Step.lean ====
section
/-! DEFINITION. One step (spec/40_dispatcher.md R120 to R128). -/

namespace Sys2Proof.Machine

/-- R123 to R126: fetch, decode, and either the illegal-word fault or the instruction. -/
def State.fetchDecodeExecute (s : State) : Host.Outcome State Fault Refusal :=
  match decode s.fetch with
  | .ok i => exec i s
  | .error _ => raise .illegalOpcode s

/-- R128: the complete step. A faulted core does nothing (R121), a suspended core makes one key check (R122), any other
core executes one instruction. The draw of R128 is the free value that `random` reads (log 1). -/
def step (s : State) : Host.Outcome State Fault Refusal :=
  if s.fault.isSome then .next s
  else if s.waiting then .next s.keyWaitCheck
  else s.fetchDecodeExecute

/-- The state with a table word stored where the next step fetches: its high byte at PC, its low byte at PC + 1 (R63,
R64), and with the two conditions cleared under which a step does not fetch (R121, R122). Logs 11 and 12. -/
def State.withFetchWord (s : State) (nbits w : Nat) : State :=
  { (s.memWrite s.pc.toNat (highByte (tableWord nbits w))).memWrite (s.pc.toNat + 1) (lowByte (tableWord nbits w)) with
    fault := none, waiting := false }

end Sys2Proof.Machine
end

