-- ==== Sys2Proof/Machine/Ports.lean ====
section
/-! DEFINITION. The host interface (spec/50_host_interface.md, spec/70_reset_and_hazards.md): every port of R210, the
host's conventional actions, and sequences of steps and host actions in one total order (spec/20_memory.md R72). The host
acts only between steps (R222). Log 15. -/

namespace Sys2Proof.Machine

/-! ## Inputs -/

/-- The argument of the load port: exactly 4096 bytes (R211). -/
abbrev Image := Vector Byte 4096

/-- The `load` port (R211, R212): replaces all of memory, re-seeds nothing, changes nothing else. -/
def State.load (s : State) (image : Image) : State := { s with mem := Memory.ofBytes 0 image.toList }

/-- The `key_set` port (R214): `KEY[k] <- b`. -/
def State.keySet (s : State) (k : Key) (b : Bool) : State := { s with keys := s.keys.set k b }

/-- The `dt_set` port (R216). -/
def State.dtSet (s : State) (w : Byte) : State := { s with dt := w }

/-- The `st_set` port (R216). -/
def State.stSet (s : State) (w : Byte) : State := { s with st := w }

/-- One less, stopping at 0 (R217; PRESUMED by the spec itself, 93_implementation_defined.md G7). Log 17. -/
def tickDown (w : Byte) : Byte := if w.toNat > 0 then w - 1 else w

/-- `HostTimerTick` (R217): the host's conventional countdown of both timers. -/
def State.hostTimerTick (s : State) : State := (s.dtSet (tickDown s.dt)).stSet (tickDown s.st)

/-- The `reset` port (R221, R260, R262): every cell of the spec takes its reset value. The count of draws goes on, because
reset does not seed the random source (R34). Log 2. -/
def State.resetPort (s : State) : State := { State.reset with drawCount := s.drawCount }

/-! ## Outputs (R219, R220): each returns current values and changes nothing -/

/-- `fb_view`: all 2048 pixels, pixel `(x, y)` is element `y * 64 + x` (R30, R219; D15). -/
def State.fbView (s : State) : List Bool :=
  (List.finRange 32).flatMap fun py => (List.finRange 64).map fun px => s.fb.pixel px py

/-- `stack_view`: all sixteen slots, stale ones too. -/
def State.stackView (s : State) : Vector Word 16 := s.stack

/-- `regs_view`. -/
def State.regsView (s : State) : Vector Byte 16 := s.v

/-- `reg_view(i)`. -/
def State.regView (s : State) (x : Reg) : Byte := s.reg x

/-- `i_view`: I as a 16-bit value. -/
def State.iView (s : State) : Word := s.i

/-- `pc_view`: PC as a 16-bit value. -/
def State.pcView (s : State) : Word := s.pc

/-- `sp_view`: SP, 0 to 16. -/
def State.spView (s : State) : Fin 17 := s.sp

/-- `dt_get` (R216). -/
def State.dtGet (s : State) : Byte := s.dt

/-- `st_get` (R216). -/
def State.stGet (s : State) : Byte := s.st

/-- `fault_view` (R220): 0 to 4. -/
def State.faultView (s : State) : BitVec 3 := faultCode s.fault

/-! ## Runs -/

/-- What the host may do to the state between two steps (R210, R217, R223). -/
inductive HostAction where
  | load (image : Image)
  | keySet (k : Key) (b : Bool)
  | dtSet (w : Byte)
  | stSet (w : Byte)
  | hostTimerTick
  | reset
  deriving DecidableEq, Repr

/-- The effect of a host action. -/
def HostAction.apply : HostAction → State → State
  | .load image, s => s.load image
  | .keySet k b, s => s.keySet k b
  | .dtSet w, s => s.dtSet w
  | .stSet w, s => s.stSet w
  | .hostTimerTick, s => s.hostTimerTick
  | .reset, s => s.resetPort

/-- An element of the total order of steps and host actions (R72, R222). -/
inductive Event where
  | step
  | host (a : HostAction)
  deriving DecidableEq, Repr

/-- The effect of an event. -/
def Event.run : Event → State → Result
  | .step, s => Machine.step s
  | .host a, s => .next (a.apply s)

/-- The effect of a sequence of events, ending at the first one that answers no next state. -/
def runEvents : List Event → State → Result
  | [], s => .next s
  | e :: es, s =>
    match e.run s with
    | .next t => runEvents es t
    | .fault r => .fault r
    | .refused r => .refused r

/-! ## Boot -/

/-- The image a conventional host builds (R265): the glyph table, zeros up to 0x1FF, the program from 0x200, zeros after;
what does not fit is cut off. Log 18. -/
def conventionalImage (program : List Byte) : Image :=
  Vector.ofFn fun a : Fin 4096 =>
    if a.val < 0x200 then params.glyphTable.toList.getD a.val 0x00 else program.getD (a.val - 0x200) 0x00

/-- R264: reset, then load. -/
def State.boot (image : Image) : State := State.reset.load image

end Sys2Proof.Machine
end

