-- ==== Sys2Proof/Safety.lean ====
section
/-! DEFINITION. What counts as a safe run, and the relations that claims are stated in (spec/10_state.md R37, R38,
spec/60_exceptions.md R236, spec/70_reset_and_hazards.md R277). -/

namespace Sys2Proof.Machine

/-! ## Conditions of a state -/

/-- The core executes an instruction in its next step: it is neither faulted (R121) nor suspended (R122). -/
def State.Running (s : State) : Prop := s.fault = none ∧ s.waiting = false

/-- R236: a state is safe when no fault is latched; a faulted state is never a successful one. -/
def State.Safe (s : State) : Prop := s.fault = none

/-- The invariants of R38. SP, WAITREG, V, DT and ST are in range by their types, FAULT by `FaultCause`; the canonical
form of memory is the model's own (log 5). -/
structure State.Inv (s : State) : Prop where
  mem_wf : s.mem.wf = true
  pc_le : s.pc.toNat ≤ 0xFFF
  i_le : s.i.toNat ≤ 0xFFF
  stack_le : ∀ k : Fin 16, s.stack[k].toNat ≤ 0xFFF
  not_waiting_faulted : ¬ (s.waiting = true ∧ s.fault ≠ none)

/-- END_OF_RUN (R277; D22): a running state that a step leaves as it is. DESIGN CHOICE, log 13. It does not say that the
host stops stepping there or changes nothing afterwards. -/
def State.EndOfRun (s : State) : Prop := s.Running ∧ step s = .next s

/-! ## Who writes what (R37, R22) -/

/-- The general registers an instruction may write: its destination, the prefix V0 to Vx of a block load, and VF for the
six instructions that define a flag (R22, R37). -/
def mayWriteReg (i : Instr) (r : Reg) : Bool :=
  match i with
  | .loadLiteral x _ | .addLiteral x _ | .registerCopy x _ | .or x _ | .and x _ | .xor x _ | .random x _
  | .loadFromDelayTimer x => r == x
  | .addWithCarry x _ | .subtract x _ | .reverseSubtract x _ | .shiftRight x _ | .shiftLeft x _ =>
    r == x || r == flagReg
  | .draw _ _ _ => r == flagReg
  | .loadRegistersFromMemory x => decide (r ≤ x)
  | .clearScreen | .ret | .sys _ | .jump _ | .call _ | .skipIfEqualByte _ _ | .skipIfNotEqualByte _ _
  | .skipIfEqualRegisters _ _ | .skipIfNotEqualRegisters _ _ | .loadIndex _ | .jumpOffRegister _
  | .skipIfKeyPressed _ | .skipIfKeyNotPressed _ | .waitForKey _ | .setDelayTimer _ | .setSoundTimer _ | .addIndex _
  | .loadSpriteAddress _ | .storeBcd _ | .storeRegistersToMemory _ => false

/-- How many bytes an instruction stores, at the ascending addresses `I`, `I + 1`, … (R66). -/
def storedBytes (i : Instr) : Nat :=
  match i with
  | .storeBcd _ => 3
  | .storeRegistersToMemory x => x.val + 1
  | .clearScreen | .ret | .sys _ | .jump _ | .call _ | .skipIfEqualByte _ _ | .skipIfNotEqualByte _ _
  | .skipIfEqualRegisters _ _ | .loadLiteral _ _ | .addLiteral _ _ | .registerCopy _ _ | .or _ _ | .and _ _ | .xor _ _
  | .addWithCarry _ _ | .subtract _ _ | .shiftRight _ _ | .reverseSubtract _ _ | .shiftLeft _ _
  | .skipIfNotEqualRegisters _ _ | .loadIndex _ | .jumpOffRegister _ | .random _ _ | .draw _ _ _ | .skipIfKeyPressed _
  | .skipIfKeyNotPressed _ | .loadFromDelayTimer _ | .waitForKey _ | .setDelayTimer _ | .setSoundTimer _ | .addIndex _
  | .loadSpriteAddress _ | .loadRegistersFromMemory _ => 0

/-! ## The sprite as a set of pixels (R180, R182) -/

/-- The pixel `(px, py)` is under a sprite bit of 1 of the `n`-row sprite at I drawn at `vx`, `vy`. -/
def State.spriteCovers (s : State) (vx vy : Byte) (n : Nat) (px : Col) (py : Row) : Prop :=
  ∃ r c : Nat, r < n ∧ c < 8 ∧ px.val = (vx.toNat + c) % 64 ∧ py.val = (vy.toNat + r) % 32 ∧
    (s.memRead (s.i.toNat + r)).getLsbD (7 - c) = true

end Sys2Proof.Machine
end

