-- ==== Sys2Proof/Certificates/Slice0/Obligations.lean ====
section
/-! DEFINITION. The statements for the provers. Each docstring names the rules of spec/ it formalises. An instruction's
statement gives its word in the place values of its pattern, the next state that `exec` answers, and with it everything
that stays as it was: in a record `{ s with … }` every cell not named is unchanged. The patterns are those of R97; they,
the reduction of addresses to 12 bits and the fault policy are choices of the spec itself (log 10). -/

open Sys2Proof Sys2Proof.Machine

/-! ## Encoding -/

/-- 30_encoding.md sections 1, 2 and 4 (R92, R94, R97): decoding an encoded well-formed instruction gives it back, with
every operand, from its word and from its bytes with anything after them. -/
def Obligations.DecodeOfEncodeIsTheInstruction : Prop :=
  ∀ (i : Instr) (rest : List Byte), i.wellFormed = true →
    decode (encode i) = .ok i ∧ decodeBytes (encodeBytes i ++ rest) = .ok (i, rest)

/-- 30_encoding.md sections 1 and 2 (R92, R94): an instruction that a word decodes to is well-formed and has that word
as its encoding, so two words never stand for one instruction. -/
def Obligations.EncodeOfDecodeIsTheWord : Prop :=
  ∀ (op : Word) (i : Instr), decode op = .ok i → encode i = op ∧ i.wellFormed = true

/-- 30_encoding.md section 5, the table of illegal words (R100): the words that decode to no instruction are exactly
those of its five rows. -/
def Obligations.IllegalWordsAreExactlyTheTable : Prop :=
  ∀ op : Word, (∃ e, decode op = .error e) ↔
    (op.toNat / 4096 = 5 ∧ op.toNat % 16 ≠ 0) ∨
    (op.toNat / 4096 = 8 ∧ op.toNat % 16 ∈ [0x8, 0x9, 0xA, 0xB, 0xC, 0xD, 0xF]) ∨
    (op.toNat / 4096 = 9 ∧ op.toNat % 16 ≠ 0) ∨
    (op.toNat / 4096 = 0xE ∧ op.toNat % 256 ∉ [0x9E, 0xA1]) ∨
    (op.toNat / 4096 = 0xF ∧ op.toNat % 256 ∉ [0x07, 0x0A, 0x15, 0x18, 0x1E, 0x29, 0x33, 0x55, 0x65])

/-- 30_encoding.md section 4 (R97): a word decodes to the instruction named by a row of the opcode map exactly when that
row selects it. -/
def Obligations.DecodeFollowsTheOpcodeMap : Prop :=
  ∀ (op : Word) (row : OpcodeRow), row ∈ opcodeMap →
    (row.selects op = true ↔ ∃ i, decode op = .ok i ∧ i.mnemonic = row.name)

/-- 30_encoding.md section 7 (R106): the worked encodings, as words and as bytes, and its illegal words. -/
def Obligations.WorkedEncodingsDecode : Prop :=
  decode 0x00E0 = .ok .clearScreen ∧ decode 0x00EE = .ok .ret ∧ decode 0x0123 = .ok (.sys 0x123) ∧
  decode 0x12A4 = .ok (.jump 0x2A4) ∧ decode 0x2FFE = .ok (.call 0xFFE) ∧
  decode 0x3A3C = .ok (.skipIfEqualByte 0xA 0x3C) ∧ decode 0x51E0 = .ok (.skipIfEqualRegisters 1 0xE) ∧
  decode 0x67FF = .ok (.loadLiteral 7 0xFF) ∧ decode 0x83F4 = .ok (.addWithCarry 3 0xF) ∧
  decode 0x8B0E = .ok (.shiftLeft 0xB 0) ∧ decode 0xA300 = .ok (.loadIndex 0x300) ∧
  decode 0xC00F = .ok (.random 0 0x0F) ∧ decode 0xD125 = .ok (.draw 1 2 5) ∧
  decode 0xE4A1 = .ok (.skipIfKeyNotPressed 4) ∧ decode 0xFF0A = .ok (.waitForKey 0xF) ∧
  decode 0xF255 = .ok (.storeRegistersToMemory 2) ∧
  ([.clearScreen, .ret, .sys 0x123, .jump 0x2A4, .call 0xFFE, .skipIfEqualByte 0xA 0x3C, .skipIfEqualRegisters 1 0xE,
    .loadLiteral 7 0xFF, .addWithCarry 3 0xF, .shiftLeft 0xB 0, .loadIndex 0x300, .random 0 0x0F, .draw 1 2 5,
    .skipIfKeyNotPressed 4, .waitForKey 0xF, .storeRegistersToMemory 2] : List Instr).map encodeBytes =
    [[0x00, 0xE0], [0x00, 0xEE], [0x01, 0x23], [0x12, 0xA4], [0x2F, 0xFE], [0x3A, 0x3C], [0x51, 0xE0],
     [0x67, 0xFF], [0x83, 0xF4], [0x8B, 0x0E], [0xA3, 0x00], [0xC0, 0x0F], [0xD1, 0x25],
     [0xE4, 0xA1], [0xFF, 0x0A], [0xF2, 0x55]] ∧
  ∀ op ∈ ([0x5121, 0x8128, 0xE19F, 0xF100, 0xF1FF] : List Word), ∃ e, decode op = .error e

/-! ## The step -/

/-- 40_dispatcher.md section 2 (R126): a step of a core that is neither faulted nor suspended, whose word at PC decodes
to an instruction, is `exec` of that instruction at that state; the step adds nothing around it. -/
def Obligations.StepRunsTheDecodedInstruction : Prop :=
  ∀ (s : State) (i : Instr), s.fault = none → s.waiting = false → decode s.fetch = .ok i → step s = exec i s

/-- 20_memory.md section 3 and 40_dispatcher.md section 2 (R63, R64, R123): the fetched word is big-endian, and its two
bytes lie at PC and PC + 1 modulo 4096. -/
def Obligations.FetchIsBigEndianAtPc : Prop :=
  ∀ s : State, s.fetch.toNat = (s.memRead s.pc.toNat).toNat * 256 + (s.memRead (s.pc.toNat + 1)).toNat ∧
    s.memRead s.pc.toNat = s.mem.get (s.pc.toNat % 4096) ∧
    s.memRead (s.pc.toNat + 1) = s.mem.get ((s.pc.toNat + 1) % 4096)

/-- The model's own convention (logs 11 and 12): a table word placed with `withFetchWord` is what the very next step
runs. -/
def Obligations.StepRunsThePlacedWord : Prop :=
  ∀ (s : State) (w : Nat) (i : Instr), s.mem.wf = true → decodeTableWord 16 w = some i →
    step (s.withFetchWord 16 w) = exec i (s.withFetchWord 16 w)

/-- R125: an illegal word latches cause 1 and changes nothing else, PC least of all. -/
def Obligations.IllegalWordLatchesIllegalOpcode : Prop :=
  ∀ (s : State) (e : Illegal), s.fault = none → s.waiting = false → decode s.fetch = .error e →
    step s = .next { s with fault := some .illegalOpcode } ∧ faultCode (some .illegalOpcode) = 1

/-- R121: a faulted core's step changes nothing at all, and this check comes before the suspension; the core stays
faulted under every host action but reset, which ends the condition. -/
def Obligations.FaultedStepChangesNothing : Prop :=
  ∀ s : State, s.fault ≠ none →
    step s = .next s ∧ (∀ a : HostAction, a ≠ .reset → (a.apply s).fault = s.fault) ∧
      (HostAction.apply .reset s).fault = none

/-- R122: a suspended step with no key down changes nothing, over arbitrarily many steps; with some key down it stores
the least pressed index in V[WAITREG], ends the suspension and changes nothing else, so that the next step executes the
instruction at PC. -/
def Obligations.SuspendedStepScansTheKeys : Prop :=
  ∀ s : State, s.fault = none → s.waiting = true →
    ((∀ k : Key, s.keys[k] = false) → ∀ n, runEvents (List.replicate n .step) s = .next s) ∧
    (∀ k : Key, s.keys[k] = true → (∀ j : Key, j < k → s.keys[j] = false) →
      ∃ t, step s = .next t ∧ t = { s with v := s.v.set s.waitReg (BitVec.ofNat 8 k.val), waiting := false } ∧
        ∀ i, decode t.fetch = .ok i → step t = exec i t)

/-- 40_dispatcher.md section 1 (R120): the step is total, and does exactly one of four things: nothing when faulted; one
key check when suspended; the latching of one cause and nothing else; or one instruction, without a fault. -/
def Obligations.StepDoesOneOfFourThings : Prop :=
  ∀ s : State,
    (s.fault ≠ none ∧ step s = .next s) ∨
    (s.fault = none ∧ s.waiting = true ∧ step s = .next s.keyWaitCheck) ∨
    (s.fault = none ∧ s.waiting = false ∧ ∃ c, step s = .next { s with fault := some c }) ∨
    (s.fault = none ∧ s.waiting = false ∧
      ∃ i t, decode s.fetch = .ok i ∧ exec i s = .next t ∧ step s = .next t ∧ t.fault = none)

/-- R231, R232: each cause, with its code, is latched exactly on its condition on the state at the start of the step,
and the step that latches it changes nothing else. -/
def Obligations.EachFaultIsRaisedExactlyOnItsCondition : Prop :=
  ∀ s : State, s.fault = none → s.waiting = false →
    ∃ t, step s = .next t ∧
      (∀ c, t.fault = some c → t = { s with fault := some c }) ∧
      (t.fault = some .illegalOpcode ↔ ∃ e, decode s.fetch = .error e) ∧
      (t.fault = some .stackOverflow ↔ s.sp.val = 16 ∧ ∃ nnn, decode s.fetch = .ok (.call nnn)) ∧
      (t.fault = some .stackUnderflow ↔ s.sp.val = 0 ∧ decode s.fetch = .ok .ret) ∧
      (t.fault = some .keyIndexRange ↔ ∃ x : Reg, s.v[x].toNat > 15 ∧
        (decode s.fetch = .ok (.skipIfKeyPressed x) ∨ decode s.fetch = .ok (.skipIfKeyNotPressed x))) ∧
      faultCode none = 0 ∧ faultCode (some .illegalOpcode) = 1 ∧ faultCode (some .stackOverflow) = 2 ∧
      faultCode (some .stackUnderflow) = 3 ∧ faultCode (some .keyIndexRange) = 4 ∧
      ∀ c : Option FaultCause, (faultCode c).toNat ≤ 4

/-- 40_dispatcher.md section 4 (R131) and 60_exceptions.md section 1: whatever a step does, KEY stays as it is, DT and
ST change only by their own set instruction, and the latch never goes back. -/
def Obligations.StepNeverTouchesHostInputs : Prop :=
  ∀ s t : State, step s = .next t →
    t.keys = s.keys ∧
    (t.dt ≠ s.dt → ∃ x, decode s.fetch = .ok (.setDelayTimer x)) ∧
    (t.st ≠ s.st → ∃ x, decode s.fetch = .ok (.setSoundTimer x)) ∧
    (s.fault ≠ none → t.fault = s.fault)

/-! ## Reset and invariants -/

/-- R262, R40: every cell after reset. Memory is read through the model's read of one byte; the glyph table is the
configuration parameter. -/
def Obligations.ResetEstablishesTheResetValues : Prop :=
  ∀ t : State, (t = State.reset ∨ ∃ s : State, t = s.resetPort) →
    (∀ a, (h : a < 80) → t.memRead a = params.glyphTable[a]) ∧
    (∀ a, 80 ≤ a → a < 4096 → t.memRead a = 0x00) ∧
    (∀ x : Reg, t.v[x] = 0x00) ∧ t.i = 0x000 ∧ t.pc = 0x200 ∧
    (∀ k : Fin 16, t.stack[k] = 0x0000) ∧ t.sp = 0 ∧ t.dt = 0x00 ∧ t.st = 0x00 ∧
    (∀ k : Key, t.keys[k] = false) ∧ (∀ (px : Col) (py : Row), t.fb.pixel px py = false) ∧
    t.waiting = false ∧ t.waitReg = 0 ∧ faultCode t.fault = 0

/-- 10_state.md section 13: the glyph bytes after reset. They are the default of a parameter (D19, log 9). -/
def Obligations.ResetSeedsTheDefaultGlyphs : Prop :=
  (List.range 16).map (fun d => (List.range 5).map fun k => State.reset.memRead (5 * d + k)) =
    [[0xF0, 0x90, 0x90, 0x90, 0xF0], [0x20, 0x60, 0x20, 0x20, 0x70], [0xF0, 0x10, 0xF0, 0x80, 0xF0],
     [0xF0, 0x10, 0xF0, 0x10, 0xF0], [0x90, 0x90, 0xF0, 0x10, 0x10], [0xF0, 0x80, 0xF0, 0x10, 0xF0],
     [0xF0, 0x80, 0xF0, 0x90, 0xF0], [0xF0, 0x10, 0x20, 0x40, 0x40], [0xF0, 0x90, 0xF0, 0x90, 0xF0],
     [0xF0, 0x90, 0xF0, 0x10, 0xF0], [0xF0, 0x90, 0xF0, 0x90, 0x90], [0xE0, 0x90, 0xE0, 0x90, 0xE0],
     [0xF0, 0x80, 0x80, 0x80, 0xF0], [0xE0, 0x90, 0x90, 0x90, 0xE0], [0xF0, 0x80, 0xF0, 0x80, 0xF0],
     [0xF0, 0x80, 0xF0, 0x80, 0x80]]

/-- 10_state.md section 15: its invariants hold after reset; the canonical form of memory, which holds too, is the
model's own clause and not section 15's (log 5). -/
def Obligations.ResetSatisfiesTheInvariants : Prop := State.reset.Inv

/-- 10_state.md section 15: every step keeps its invariants: PC, I and every stack slot stay within 12 bits, and no state
is both suspended and faulted. Memory also keeps its canonical form, the model's own clause (log 5). -/
def Obligations.StepKeepsTheInvariants : Prop :=
  ∀ s t : State, s.Inv → step s = .next t → t.Inv

/-- 10_state.md section 15: every interleaving of steps and host actions runs through and keeps its invariants, and with
them the canonical form of memory, the model's own clause (log 5). -/
def Obligations.EveryInterleavingKeepsTheInvariants : Prop :=
  ∀ (es : List Event) (s : State), s.Inv → ∃ t, runEvents es s = .next t ∧ t.Inv

/-- 60_exceptions.md section 1: once a cause is latched, no sequence of steps and host actions without a reset changes
the cause or makes the core run: PC, the registers, I, the stack, the frame buffer and the suspension stay. -/
def Obligations.OnlyResetLeavesTheFaultedCondition : Prop :=
  ∀ (es : List Event) (s : State), s.fault ≠ none → (∀ e ∈ es, e ≠ .host .reset) →
    ∃ t, runEvents es s = .next t ∧ t.fault = s.fault ∧ t.pc = s.pc ∧ t.v = s.v ∧ t.i = s.i ∧ t.stack = s.stack ∧
      t.sp = s.sp ∧ t.fb = s.fb ∧ t.waiting = s.waiting ∧ t.waitReg = s.waitReg

/-- 20_memory.md section 1 (R20, R60) and log 5: memories in canonical form that read alike at every address are equal
data. -/
def Obligations.CanonicalMemoriesThatReadAlikeAreEqual : Prop :=
  ∀ m m' : Memory, m.wf = true → m'.wf = true → (∀ a, a < 4096 → m.get a = m'.get a) → m = m'

/-! ## Control flow -/

/-- R141, R142: `sys` and `jump` set PC to their address and change nothing else. The two words that are not `sys` are
left out of its pattern. -/
def Obligations.SysAndJumpSetPc : Prop :=
  ∀ (nnn : Addr) (s : State),
    (nnn ≠ 0x0E0 → nnn ≠ 0x0EE → decode (BitVec.ofNat 16 nnn.toNat) = .ok (.sys nnn)) ∧
    decode (BitVec.ofNat 16 (0x1000 + nnn.toNat)) = .ok (.jump nnn) ∧
    exec (.sys nnn) s = .next { s with pc := nnn.setWidth 16 } ∧
    exec (.jump nnn) s = .next { s with pc := nnn.setWidth 16 }

/-- R143: `call` pushes the address of the following instruction, or latches StackOverflow on a full stack. -/
def Obligations.CallPushesTheReturnAddress : Prop :=
  ∀ (nnn : Addr) (s : State),
    decode (BitVec.ofNat 16 (0x2000 + nnn.toNat)) = .ok (.call nnn) ∧
    (∀ h : s.sp.val < 16, exec (.call nnn) s = .next { s with
      stack := s.stack.set s.sp.val (BitVec.ofNat 16 ((s.pc.toNat + 2) % 4096)),
      sp := ⟨s.sp.val + 1, by omega⟩, pc := nnn.setWidth 16 }) ∧
    (s.sp.val = 16 → exec (.call nnn) s = .next { s with fault := some .stackOverflow })

/-- R144: `ret` takes PC from the slot below SP, which keeps its value, or latches StackUnderflow on an empty stack. -/
def Obligations.RetReturnsToThePushedAddress : Prop :=
  ∀ s : State,
    decode 0x00EE = .ok .ret ∧
    (∀ h : 0 < s.sp.val, exec .ret s = .next { s with
      sp := ⟨s.sp.val - 1, by omega⟩, pc := BitVec.ofNat 16 ((s.stack[s.sp.val - 1]'(by omega)).toNat % 4096) }) ∧
    (s.sp.val = 0 → exec .ret s = .next { s with fault := some .stackUnderflow })

/-- 41_control_flow.md section 2, the source's property quoted there: `call` followed by `ret` restores PC to the
instruction after the call and the stack pointer to its value before it; only the slot stays written. -/
def Obligations.CallThenRetRestoresPcAndSp : Prop :=
  ∀ (nnn : Addr) (s : State), s.sp.val < 16 →
    ∃ t u, exec (.call nnn) s = .next t ∧ exec .ret t = .next u ∧
      u.pc.toNat = (s.pc.toNat + 2) % 4096 ∧ u.sp = s.sp ∧
      (∀ k : Fin 16, k.val ≠ s.sp.val → u.stack[k] = s.stack[k]) ∧
      u = { s with pc := u.pc, stack := u.stack }

/-- R145: `jump_off_register` sets PC to the sum of V0 and its address, reduced to 12 bits. -/
def Obligations.JumpOffRegisterAddsV0 : Prop :=
  ∀ (nnn : Addr) (s : State),
    decode (BitVec.ofNat 16 (0xB000 + nnn.toNat)) = .ok (.jumpOffRegister nnn) ∧
    exec (.jumpOffRegister nnn) s = .next { s with pc := BitVec.ofNat 16 ((s.v[0].toNat + nnn.toNat) % 4096) }

/-- R146, R147, R148, R149: the four compare skips advance PC by 4 when their condition holds and by 2 otherwise, modulo
4096, and change nothing else. -/
def Obligations.CompareSkipsAdvanceByFourOrTwo : Prop :=
  ∀ (x y : Reg) (kk : Byte) (s : State),
    decode (BitVec.ofNat 16 (0x3000 + 0x100 * x.val + kk.toNat)) = .ok (.skipIfEqualByte x kk) ∧
    decode (BitVec.ofNat 16 (0x4000 + 0x100 * x.val + kk.toNat)) = .ok (.skipIfNotEqualByte x kk) ∧
    decode (BitVec.ofNat 16 (0x5000 + 0x100 * x.val + 0x10 * y.val)) = .ok (.skipIfEqualRegisters x y) ∧
    decode (BitVec.ofNat 16 (0x9000 + 0x100 * x.val + 0x10 * y.val)) = .ok (.skipIfNotEqualRegisters x y) ∧
    exec (.skipIfEqualByte x kk) s =
      .next { s with pc := BitVec.ofNat 16 ((s.pc.toNat + if s.v[x] = kk then 4 else 2) % 4096) } ∧
    exec (.skipIfNotEqualByte x kk) s =
      .next { s with pc := BitVec.ofNat 16 ((s.pc.toNat + if s.v[x] = kk then 2 else 4) % 4096) } ∧
    exec (.skipIfEqualRegisters x y) s =
      .next { s with pc := BitVec.ofNat 16 ((s.pc.toNat + if s.v[x] = s.v[y] then 4 else 2) % 4096) } ∧
    exec (.skipIfNotEqualRegisters x y) s =
      .next { s with pc := BitVec.ofNat 16 ((s.pc.toNat + if s.v[x] = s.v[y] then 2 else 4) % 4096) }

/-! ## ALU -/

/-- R163, R164, R165: `load_literal`, `add_literal` (modulo 256) and `register_copy` write Vx and no flag. -/
def Obligations.LoadAddLiteralAndCopyWriteVx : Prop :=
  ∀ (x y : Reg) (kk : Byte) (s : State),
    decode (BitVec.ofNat 16 (0x6000 + 0x100 * x.val + kk.toNat)) = .ok (.loadLiteral x kk) ∧
    decode (BitVec.ofNat 16 (0x7000 + 0x100 * x.val + kk.toNat)) = .ok (.addLiteral x kk) ∧
    decode (BitVec.ofNat 16 (0x8000 + 0x100 * x.val + 0x10 * y.val)) = .ok (.registerCopy x y) ∧
    exec (.loadLiteral x kk) s =
      .next { s with v := s.v.set x kk, pc := BitVec.ofNat 16 ((s.pc.toNat + 2) % 4096) } ∧
    exec (.addLiteral x kk) s =
      .next { s with v := s.v.set x (BitVec.ofNat 8 ((s.v[x].toNat + kk.toNat) % 256)),
                     pc := BitVec.ofNat 16 ((s.pc.toNat + 2) % 4096) } ∧
    exec (.registerCopy x y) s =
      .next { s with v := s.v.set x s.v[y], pc := BitVec.ofNat 16 ((s.pc.toNat + 2) % 4096) }

/-- R166, R167, R168: `or`, `and`, `xor` write Vx bit by bit and leave VF as it is unless it is Vx. -/
def Obligations.BitwiseInstructionsWriteVx : Prop :=
  ∀ (x y : Reg) (s : State),
    decode (BitVec.ofNat 16 (0x8001 + 0x100 * x.val + 0x10 * y.val)) = .ok (.or x y) ∧
    decode (BitVec.ofNat 16 (0x8002 + 0x100 * x.val + 0x10 * y.val)) = .ok (.and x y) ∧
    decode (BitVec.ofNat 16 (0x8003 + 0x100 * x.val + 0x10 * y.val)) = .ok (.xor x y) ∧
    exec (.or x y) s =
      .next { s with v := s.v.set x (s.v[x] ||| s.v[y]), pc := BitVec.ofNat 16 ((s.pc.toNat + 2) % 4096) } ∧
    exec (.and x y) s =
      .next { s with v := s.v.set x (s.v[x] &&& s.v[y]), pc := BitVec.ofNat 16 ((s.pc.toNat + 2) % 4096) } ∧
    exec (.xor x y) s =
      .next { s with v := s.v.set x (s.v[x] ^^^ s.v[y]), pc := BitVec.ofNat 16 ((s.pc.toNat + 2) % 4096) }

/-- R169: `add_with_carry` writes the sum modulo 256 to Vx and then the carry of the exact sum to VF. -/
def Obligations.AddWithCarrySetsVfToTheCarry : Prop :=
  ∀ (x y : Reg) (s : State),
    decode (BitVec.ofNat 16 (0x8004 + 0x100 * x.val + 0x10 * y.val)) = .ok (.addWithCarry x y) ∧
    exec (.addWithCarry x y) s = .next { s with
      v := (s.v.set x (BitVec.ofNat 8 ((s.v[x].toNat + s.v[y].toNat) % 256))).set 15
        (if s.v[x].toNat + s.v[y].toNat > 255 then 1 else 0),
      pc := BitVec.ofNat 16 ((s.pc.toNat + 2) % 4096) }

/-- R170, R171: the two subtractions write the difference modulo 256 to Vx and then the complement of the borrow to VF.
-/
def Obligations.SubtractionsSetVfToNoBorrow : Prop :=
  ∀ (x y : Reg) (s : State),
    decode (BitVec.ofNat 16 (0x8005 + 0x100 * x.val + 0x10 * y.val)) = .ok (.subtract x y) ∧
    decode (BitVec.ofNat 16 (0x8007 + 0x100 * x.val + 0x10 * y.val)) = .ok (.reverseSubtract x y) ∧
    exec (.subtract x y) s = .next { s with
      v := (s.v.set x (BitVec.ofNat 8 ((s.v[x].toNat + 256 - s.v[y].toNat) % 256))).set 15
        (if s.v[x].toNat ≥ s.v[y].toNat then 1 else 0),
      pc := BitVec.ofNat 16 ((s.pc.toNat + 2) % 4096) } ∧
    exec (.reverseSubtract x y) s = .next { s with
      v := (s.v.set x (BitVec.ofNat 8 ((s.v[y].toNat + 256 - s.v[x].toNat) % 256))).set 15
        (if s.v[y].toNat ≥ s.v[x].toNat then 1 else 0),
      pc := BitVec.ofNat 16 ((s.pc.toNat + 2) % 4096) }

/-- R172, R173: the shifts move Vx by one place, whatever the field y is, and write the bit shifted out to VF last. -/
def Obligations.ShiftsSetVfToTheBitShiftedOut : Prop :=
  ∀ (x y : Reg) (s : State),
    decode (BitVec.ofNat 16 (0x8006 + 0x100 * x.val + 0x10 * y.val)) = .ok (.shiftRight x y) ∧
    decode (BitVec.ofNat 16 (0x800E + 0x100 * x.val + 0x10 * y.val)) = .ok (.shiftLeft x y) ∧
    exec (.shiftRight x y) s = .next { s with
      v := (s.v.set x (BitVec.ofNat 8 (s.v[x].toNat / 2))).set 15 (BitVec.ofNat 8 (s.v[x].toNat % 2)),
      pc := BitVec.ofNat 16 ((s.pc.toNat + 2) % 4096) } ∧
    exec (.shiftLeft x y) s = .next { s with
      v := (s.v.set x (BitVec.ofNat 8 (2 * s.v[x].toNat % 256))).set 15 (BitVec.ofNat 8 (s.v[x].toNat / 128)),
      pc := BitVec.ofNat 16 ((s.pc.toNat + 2) % 4096) }

/-- 42_alu.md section 6 (R174): `random` writes the next fresh draw masked by its literal. For every draw the effect is
the same, with no bit set outside the mask and a value at most the mask, and every value inside the mask is the result of
some draw. That the draw is `Config.draw8 s.drawCount`, and that the counter moves, is the model's own (log 1). -/
def Obligations.RandomWritesAMaskedDraw : Prop :=
  ∀ (x : Reg) (kk : Byte) (s : State),
    decode (BitVec.ofNat 16 (0xC000 + 0x100 * x.val + kk.toNat)) = .ok (.random x kk) ∧
    exec (.random x kk) s = randomWith (Config.draw8 s.drawCount) x kk s ∧
    (∀ r : Byte, ∃ w : Byte, randomWith r x kk s = .next { s with
        v := s.v.set x w, pc := BitVec.ofNat 16 ((s.pc.toNat + 2) % 4096), drawCount := s.drawCount + 1 } ∧
      w = r &&& kk ∧ w &&& ~~~kk = 0 ∧ w.toNat ≤ kk.toNat) ∧
    (∀ w : Byte, w &&& ~~~kk = 0 → ∃ r t, randomWith r x kk s = .next t ∧ t.v[x] = w) ∧
    exec (.random x kk) s = .next { s with
      v := s.v.set x (Config.draw8 s.drawCount &&& kk),
      pc := BitVec.ofNat 16 ((s.pc.toNat + 2) % 4096), drawCount := s.drawCount + 1 }

/-- 42_alu.md section 2, the source's wraparound law quoted there: two `add_literal` give the register value of one with
the sum of the literals modulo 256. -/
def Obligations.AddLiteralTwiceIsAddLiteralOfTheSum : Prop :=
  ∀ (x : Reg) (k1 k2 : Byte) (s : State),
    ∃ t u w, exec (.addLiteral x k1) s = .next t ∧ exec (.addLiteral x k2) t = .next u ∧
      exec (.addLiteral x (BitVec.ofNat 8 ((k1.toNat + k2.toNat) % 256))) s = .next w ∧ u.v = w.v

/-! ## Who writes what -/

/-- 10_state.md section 14 (R37) and R22: an instruction that answers a next state leaves every general register alone
that it does not name as a destination; VF counts as a destination of the six that define a flag only. -/
def Obligations.OnlyNamedRegistersChange : Prop :=
  ∀ (i : Instr) (s t : State) (r : Reg), exec i s = .next t → mayWriteReg i r = false → t.v[r] = s.v[r]

/-- 10_state.md section 14 (R37) and 20_memory.md section 5 (R66): every byte of memory is as before except the bytes
the instruction stores to, which are `storedBytes` many, ascending from I; an instruction that stores none leaves all of
memory alone. -/
def Obligations.OnlyStoredBytesChange : Prop :=
  ∀ (i : Instr) (s t : State) (a : Nat), s.mem.wf = true → exec i s = .next t →
    (∀ k, k < storedBytes i → a % 4096 ≠ (s.i.toNat + k) % 4096) → t.memRead a = s.memRead a

/-- 10_state.md section 14 (R37): each special cell changes only by the instructions its column names; `drawCount` is
the model's own (log 1). -/
def Obligations.SpecialCellsChangeOnlyByTheirInstructions : Prop :=
  ∀ (i : Instr) (s t : State), exec i s = .next t →
    (t.i ≠ s.i → (∃ nnn, i = .loadIndex nnn) ∨ (∃ x, i = .addIndex x) ∨ ∃ x, i = .loadSpriteAddress x) ∧
    (t.stack ≠ s.stack → ∃ nnn, i = .call nnn) ∧
    (t.sp ≠ s.sp → (∃ nnn, i = .call nnn) ∨ i = .ret) ∧
    (t.dt ≠ s.dt → ∃ x, i = .setDelayTimer x) ∧
    (t.st ≠ s.st → ∃ x, i = .setSoundTimer x) ∧
    t.keys = s.keys ∧
    (t.fb ≠ s.fb → i = .clearScreen ∨ ∃ x y n, i = .draw x y n) ∧
    (t.waiting ≠ s.waiting → ∃ x, i = .waitForKey x) ∧
    (t.waitReg ≠ s.waitReg → ∃ x, i = .waitForKey x) ∧
    (t.fault ≠ s.fault → (∃ nnn, i = .call nnn) ∨ i = .ret ∨ (∃ x, i = .skipIfKeyPressed x) ∨
      ∃ x, i = .skipIfKeyNotPressed x) ∧
    (t.drawCount ≠ s.drawCount → ∃ x kk, i = .random x kk)

/-! ## Frame buffer -/

/-- R181: `clear_screen` zeroes every pixel and changes nothing else but PC. -/
def Obligations.ClearScreenZeroesEveryPixel : Prop :=
  ∀ s : State, decode 0x00E0 = .ok .clearScreen ∧
    ∃ t, exec .clearScreen s = .next t ∧ (∀ (px : Col) (py : Row), t.fb.pixel px py = false) ∧
      t = { s with fb := t.fb, pc := BitVec.ofNat 16 ((s.pc.toNat + 2) % 4096) }

/-- 43_draw.md section 3 (R182): `draw` flips exactly the pixels under a sprite bit of 1, coordinates wrapping per pixel
and sampled before VF is written; VF is 1 exactly when some of them was 1; nothing else changes but PC. The collision is
read from the frame buffer at the start of the draw, which by R183 (e), an inference the spec marks as its own, is the
same as reading it when each pixel is reached. -/
def Obligations.DrawXorsTheSpriteAndReportsCollision : Prop :=
  ∀ (x y : Reg) (n : Height) (s : State),
    decode (BitVec.ofNat 16 (0xD000 + 0x100 * x.val + 0x10 * y.val + n.val)) = .ok (.draw x y n) ∧
    ∃ t, exec (.draw x y n) s = .next t ∧
      (∀ (px : Col) (py : Row), s.spriteCovers s.v[x] s.v[y] n.val px py →
        t.fb.pixel px py = !s.fb.pixel px py) ∧
      (∀ (px : Col) (py : Row), ¬ s.spriteCovers s.v[x] s.v[y] n.val px py → t.fb.pixel px py = s.fb.pixel px py) ∧
      ((∃ (px : Col) (py : Row), s.spriteCovers s.v[x] s.v[y] n.val px py ∧ s.fb.pixel px py = true) → t.v[15] = 1) ∧
      ((¬ ∃ (px : Col) (py : Row), s.spriteCovers s.v[x] s.v[y] n.val px py ∧ s.fb.pixel px py = true) → t.v[15] = 0) ∧
      (∀ r : Reg, r ≠ 15 → t.v[r] = s.v[r]) ∧
      t = { s with v := t.v, fb := t.fb, pc := BitVec.ofNat 16 ((s.pc.toNat + 2) % 4096) }

/-- 43_draw.md section 3, the double-draw law: drawing the same sprite twice at coordinates not held in VF restores the
frame buffer, and the second draw collides exactly when some pixel under a sprite bit was 0 before the first. -/
def Obligations.DrawingTwiceRestoresTheFrameBuffer : Prop :=
  ∀ (x y : Reg) (n : Height) (s : State), x ≠ 15 → y ≠ 15 →
    ∃ t u, exec (.draw x y n) s = .next t ∧ exec (.draw x y n) t = .next u ∧ u.fb = s.fb ∧
      (u.v[15] = 1 ↔ ∃ (px : Col) (py : Row), s.spriteCovers s.v[x] s.v[y] n.val px py ∧ s.fb.pixel px py = false)

/-! ## Input and timers -/

/-- R191, R192: the key skips test the key that Vx names and advance PC by 4 or 2, or latch KeyIndexRange when Vx is
above 15; they change nothing else. -/
def Obligations.KeySkipsTestTheNamedKey : Prop :=
  ∀ (x : Reg) (s : State),
    decode (BitVec.ofNat 16 (0xE09E + 0x100 * x.val)) = .ok (.skipIfKeyPressed x) ∧
    decode (BitVec.ofNat 16 (0xE0A1 + 0x100 * x.val)) = .ok (.skipIfKeyNotPressed x) ∧
    (∀ h : s.v[x].toNat < 16,
      exec (.skipIfKeyPressed x) s =
        .next { s with pc := BitVec.ofNat 16 ((s.pc.toNat + if s.keys[s.v[x].toNat] = true then 4 else 2) % 4096) } ∧
      exec (.skipIfKeyNotPressed x) s =
        .next { s with pc := BitVec.ofNat 16 ((s.pc.toNat + if s.keys[s.v[x].toNat] = true then 2 else 4) % 4096) }) ∧
    (s.v[x].toNat > 15 →
      exec (.skipIfKeyPressed x) s = .next { s with fault := some .keyIndexRange } ∧
      exec (.skipIfKeyNotPressed x) s = .next { s with fault := some .keyIndexRange })

/-- 44_input_timers.md section 3 (R193): `wait_for_key` suspends, records its register and advances PC; it writes no
register and looks at no key. -/
def Obligations.WaitForKeySuspends : Prop :=
  ∀ (x : Reg) (s : State),
    decode (BitVec.ofNat 16 (0xF00A + 0x100 * x.val)) = .ok (.waitForKey x) ∧
    exec (.waitForKey x) s = .next { s with
      waiting := true, waitReg := x, pc := BitVec.ofNat 16 ((s.pc.toNat + 2) % 4096) }

/-- R194, R195, R196: the three timer moves copy one byte and change nothing else but PC. -/
def Obligations.TimerMovesCopyOneByte : Prop :=
  ∀ (x : Reg) (s : State),
    decode (BitVec.ofNat 16 (0xF007 + 0x100 * x.val)) = .ok (.loadFromDelayTimer x) ∧
    decode (BitVec.ofNat 16 (0xF015 + 0x100 * x.val)) = .ok (.setDelayTimer x) ∧
    decode (BitVec.ofNat 16 (0xF018 + 0x100 * x.val)) = .ok (.setSoundTimer x) ∧
    exec (.loadFromDelayTimer x) s =
      .next { s with v := s.v.set x s.dt, pc := BitVec.ofNat 16 ((s.pc.toNat + 2) % 4096) } ∧
    exec (.setDelayTimer x) s = .next { s with dt := s.v[x], pc := BitVec.ofNat 16 ((s.pc.toNat + 2) % 4096) } ∧
    exec (.setSoundTimer x) s = .next { s with st := s.v[x], pc := BitVec.ofNat 16 ((s.pc.toNat + 2) % 4096) }

/-! ## Index register, BCD and block copies -/

/-- 45_memory_block.md section 2 (R201): `load_index` sets I to its address. The instruction is the spec's own, from
general knowledge (D27, log 10). -/
def Obligations.LoadIndexWritesI : Prop :=
  ∀ (nnn : Addr) (s : State),
    decode (BitVec.ofNat 16 (0xA000 + nnn.toNat)) = .ok (.loadIndex nnn) ∧
    exec (.loadIndex nnn) s =
      .next { s with i := nnn.setWidth 16, pc := BitVec.ofNat 16 ((s.pc.toNat + 2) % 4096) }

/-- R202, R203: `add_index` adds Vx to I modulo 4096 and `load_sprite_address` sets I to five times the whole value of
Vx; neither writes a flag. -/
def Obligations.IndexArithmeticWritesI : Prop :=
  ∀ (x : Reg) (s : State),
    decode (BitVec.ofNat 16 (0xF01E + 0x100 * x.val)) = .ok (.addIndex x) ∧
    decode (BitVec.ofNat 16 (0xF029 + 0x100 * x.val)) = .ok (.loadSpriteAddress x) ∧
    exec (.addIndex x) s = .next { s with
      i := BitVec.ofNat 16 ((s.i.toNat + s.v[x].toNat) % 4096), pc := BitVec.ofNat 16 ((s.pc.toNat + 2) % 4096) } ∧
    exec (.loadSpriteAddress x) s = .next { s with
      i := BitVec.ofNat 16 (s.v[x].toNat * 5), pc := BitVec.ofNat 16 ((s.pc.toNat + 2) % 4096) }

/-- R205: `store_bcd` writes the hundreds, tens and ones digits at I, I + 1 and I + 2 modulo 4096; every other byte and
every other cell but PC is as before. The premise is the canonical form of memory (log 5), which every step keeps. -/
def Obligations.StoreBcdWritesThreeDigits : Prop :=
  ∀ (x : Reg) (s : State),
    decode (BitVec.ofNat 16 (0xF033 + 0x100 * x.val)) = .ok (.storeBcd x) ∧
    ∃ t, exec (.storeBcd x) s = .next t ∧
      t = { s with mem := t.mem, pc := BitVec.ofNat 16 ((s.pc.toNat + 2) % 4096) } ∧
      (s.mem.wf = true →
        t.memRead s.i.toNat = BitVec.ofNat 8 (s.v[x].toNat / 100) ∧
        t.memRead (s.i.toNat + 1) = BitVec.ofNat 8 (s.v[x].toNat / 10 % 10) ∧
        t.memRead (s.i.toNat + 2) = BitVec.ofNat 8 (s.v[x].toNat % 10) ∧
        ∀ a, (∀ k, k < 3 → a % 4096 ≠ (s.i.toNat + k) % 4096) → t.memRead a = s.memRead a)

/-- R206: `store_registers_to_memory` writes V0 to Vx inclusive at ascending addresses from I modulo 4096; every other
byte and every other cell but PC is as before. The premise is the canonical form of memory (log 5). -/
def Obligations.StoreRegistersWritesV0ToVx : Prop :=
  ∀ (x : Reg) (s : State),
    decode (BitVec.ofNat 16 (0xF055 + 0x100 * x.val)) = .ok (.storeRegistersToMemory x) ∧
    ∃ t, exec (.storeRegistersToMemory x) s = .next t ∧
      t = { s with mem := t.mem, pc := BitVec.ofNat 16 ((s.pc.toNat + 2) % 4096) } ∧
      (s.mem.wf = true →
        (∀ r : Reg, r ≤ x → t.memRead (s.i.toNat + r.val) = s.v[r]) ∧
        ∀ a, (∀ r : Reg, r ≤ x → a % 4096 ≠ (s.i.toNat + r.val) % 4096) → t.memRead a = s.memRead a)

/-- 45_memory_block.md section 3 (R207): `load_registers_from_memory` loads V0 to Vx inclusive from ascending addresses
from I modulo 4096; the registers above Vx and every other cell but PC are as before. -/
def Obligations.LoadRegistersReadsV0ToVx : Prop :=
  ∀ (x : Reg) (s : State),
    decode (BitVec.ofNat 16 (0xF065 + 0x100 * x.val)) = .ok (.loadRegistersFromMemory x) ∧
    ∃ t, exec (.loadRegistersFromMemory x) s = .next t ∧
      t = { s with v := t.v, pc := BitVec.ofNat 16 ((s.pc.toNat + 2) % 4096) } ∧
      (∀ r : Reg, r ≤ x → t.v[r] = s.memRead (s.i.toNat + r.val)) ∧
      (∀ r : Reg, x < r → t.v[r] = s.v[r])

/-- 45_memory_block.md section 3, the source's round-trip property quoted there: a block load followed by a block store
with the same I and bound leaves V0 to Vx as loaded and every byte of memory as it was; so does a store followed by a
load leave every register. -/
def Obligations.BlockLoadAndStoreRoundTrip : Prop :=
  ∀ (x : Reg) (s : State), s.mem.wf = true →
    (∃ t u, exec (.loadRegistersFromMemory x) s = .next t ∧ exec (.storeRegistersToMemory x) t = .next u ∧
      u.v = t.v ∧ u.i = s.i ∧ ∀ a, u.memRead a = s.memRead a) ∧
    (∃ t u, exec (.storeRegistersToMemory x) s = .next t ∧ exec (.loadRegistersFromMemory x) t = .next u ∧
      u.v = s.v ∧ u.i = s.i)

/-! ## The host interface -/

/-- 50_host_interface.md section 2: the load port makes every byte of memory the image's byte (R211), the glyph region
too (R212 (a)), and changes no other cell (R212 (b)). That memory is in canonical form afterwards is the model's own
clause (log 5). -/
def Obligations.LoadReplacesAllOfMemoryAndNothingElse : Prop :=
  ∀ (s : State) (image : Image),
    (∀ a, (h : a < 4096) → (s.load image).memRead a = image[a]) ∧
    (s.load image).mem.wf = true ∧ s.load image = { s with mem := (s.load image).mem }

/-- 50_host_interface.md sections 4 and 5 (R214, R216, R217): a key set changes the one key it names; a timer set
changes the one timer; the host's countdown takes one from each timer that is above 0 and leaves a timer at 0 (the
saturation is the spec's G7, log 17). -/
def Obligations.KeyAndTimerPortsChangeOneCell : Prop :=
  ∀ (s : State) (k : Key) (b : Bool) (w : Byte),
    (∀ j : Key, (s.keySet k b).keys[j] = if j = k then b else s.keys[j]) ∧
    s.keySet k b = { s with keys := (s.keySet k b).keys } ∧
    s.dtSet w = { s with dt := w } ∧ s.stSet w = { s with st := w } ∧
    s.hostTimerTick = { s with dt := BitVec.ofNat 8 (s.dt.toNat - 1), st := BitVec.ofNat 8 (s.st.toNat - 1) }

/-- 50_host_interface.md section 6 (R219) and R30: the frame buffer view has 2048 elements, and element `y * 64 + x` is
the pixel `(x, y)`. -/
def Obligations.FrameBufferViewIsRowMajor : Prop :=
  ∀ (s : State) (px : Col) (py : Row),
    s.fbView.length = 2048 ∧ s.fbView[py.val * 64 + px.val]? = some (s.fb.pixel px py)

/-- 70_reset_and_hazards.md section 4 (R277): a jump to its own address is the end of a run in the sense the model has
chosen (log 13). -/
def Obligations.JumpToSelfIsEndOfRun : Prop :=
  ∀ (s : State) (nnn : Addr), s.fault = none → s.waiting = false → s.pc = nnn.setWidth 16 →
    decode s.fetch = .ok (.jump nnn) → s.EndOfRun
end

