-- ==== Sys2Proof/Laws/Decode.lean ====
section
/-! SUPPORT. The fields of encoded words, and a word as the sum of its fields (spec/30_encoding.md R92, R93). -/

namespace Sys2Proof.Laws

/-! ### Format A -/

theorem familyOf_formatA {f : Nat} (_ : f < 16) (nnn : Addr) : familyOf (formatA f nnn) = BitVec.ofNat 4 f := by
  apply BitVec.eq_of_toNat_eq
  have := nnn.isLt
  simp only [familyOf, formatA, BitVec.extractLsb'_toNat, BitVec.toNat_ofNat, Nat.shiftRight_eq_div_pow]
  omega

@[simp] theorem fieldNNN_formatA (f : Nat) (nnn : Addr) : fieldNNN (formatA f nnn) = nnn := by
  apply BitVec.eq_of_toNat_eq
  have := nnn.isLt
  simp only [fieldNNN, formatA, BitVec.extractLsb'_toNat, BitVec.toNat_ofNat, Nat.shiftRight_eq_div_pow]
  omega

/-! ### Formats RK and RF -/

theorem familyOf_formatRK {f : Nat} (_ : f < 16) (x : Reg) (kk : Byte) :
    familyOf (formatRK f x kk) = BitVec.ofNat 4 f := by
  apply BitVec.eq_of_toNat_eq
  have := kk.isLt
  have := x.isLt
  simp only [familyOf, formatRK, BitVec.extractLsb'_toNat, BitVec.toNat_ofNat, Nat.shiftRight_eq_div_pow]
  omega

@[simp] theorem fieldX_formatRK (f : Nat) (x : Reg) (kk : Byte) : fieldX (formatRK f x kk) = x := by
  apply Fin.ext
  have := kk.isLt
  simp only [fieldX, formatRK, BitVec.val_toFin, BitVec.extractLsb'_toNat, BitVec.toNat_ofNat,
    Nat.shiftRight_eq_div_pow]
  omega

@[simp] theorem fieldKK_formatRK (f : Nat) (x : Reg) (kk : Byte) : fieldKK (formatRK f x kk) = kk := by
  apply BitVec.eq_of_toNat_eq
  have := kk.isLt
  simp only [fieldKK, formatRK, BitVec.extractLsb'_toNat, BitVec.toNat_ofNat, Nat.shiftRight_eq_div_pow]
  omega

/-! ### Formats RRN and RR -/

theorem familyOf_formatRRN {f : Nat} (_ : f < 16) (x y n : Fin 16) :
    familyOf (formatRRN f x y n) = BitVec.ofNat 4 f := by
  apply BitVec.eq_of_toNat_eq
  simp only [familyOf, formatRRN, BitVec.extractLsb'_toNat, BitVec.toNat_ofNat, Nat.shiftRight_eq_div_pow]
  omega

@[simp] theorem fieldX_formatRRN (f : Nat) (x y n : Fin 16) : fieldX (formatRRN f x y n) = x := by
  apply Fin.ext
  simp only [fieldX, formatRRN, BitVec.val_toFin, BitVec.extractLsb'_toNat, BitVec.toNat_ofNat,
    Nat.shiftRight_eq_div_pow]
  omega

@[simp] theorem fieldY_formatRRN (f : Nat) (x y n : Fin 16) : fieldY (formatRRN f x y n) = y := by
  apply Fin.ext
  simp only [fieldY, formatRRN, BitVec.val_toFin, BitVec.extractLsb'_toNat, BitVec.toNat_ofNat,
    Nat.shiftRight_eq_div_pow]
  omega

@[simp] theorem fieldN_formatRRN (f : Nat) (x y n : Fin 16) : fieldN (formatRRN f x y n) = BitVec.ofFin n := by
  apply BitVec.eq_of_toNat_eq
  simp only [fieldN, formatRRN, BitVec.toNat_ofFin, BitVec.extractLsb'_toNat, BitVec.toNat_ofNat,
    Nat.shiftRight_eq_div_pow]
  omega

/-! ### A word as the sum of its fields -/

theorem toNat_eq_family_nnn (w : Word) : w.toNat = (familyOf w).toNat * 0x1000 + (fieldNNN w).toNat := by
  have := w.isLt
  simp only [familyOf, fieldNNN, BitVec.extractLsb'_toNat, Nat.shiftRight_eq_div_pow]
  omega

theorem toNat_eq_family_x_kk (w : Word) :
    w.toNat = (familyOf w).toNat * 0x1000 + (fieldX w).val * 0x100 + (fieldKK w).toNat := by
  have := w.isLt
  simp only [familyOf, fieldX, fieldKK, BitVec.val_toFin, BitVec.extractLsb'_toNat, Nat.shiftRight_eq_div_pow]
  omega

theorem toNat_eq_family_x_y_n (w : Word) :
    w.toNat = (familyOf w).toNat * 0x1000 + (fieldX w).val * 0x100 + (fieldY w).val * 0x10 + (fieldN w).toNat := by
  have := w.isLt
  simp only [familyOf, fieldX, fieldY, fieldN, BitVec.val_toFin, BitVec.extractLsb'_toNat,
    Nat.shiftRight_eq_div_pow]
  omega

/-- The two bytes of a word make the word again (R64). -/
@[simp] theorem wordOfBytes_highByte_lowByte (op : Word) : wordOfBytes (highByte op) (lowByte op) = op := by
  apply BitVec.eq_of_toNat_eq
  have := op.isLt
  simp only [wordOfBytes, highByte, lowByte, BitVec.extractLsb'_toNat, BitVec.toNat_ofNat,
    Nat.shiftRight_eq_div_pow]
  omega

/-- A table word is read as the word it is. -/
theorem decodeTableWord_eq_some {nbits w : Nat} {i : Instr} :
    decodeTableWord nbits w = some i ↔ decode (tableWord nbits w) = .ok i := by
  simp only [decodeTableWord, decodeBytes, wordOfBytes_highByte_lowByte]
  cases decode (tableWord nbits w) <;> simp [Except.map]

end Sys2Proof.Laws
end

