-- ==== Sys2Proof/Laws/State.lean ====
section
/-! SUPPORT. One lemma per field per update of the state, true by rfl, so that no later proof unfolds a record update. -/

namespace Sys2Proof.Machine

variable (s : State)

/-! ### State.setReg -/

@[simp] theorem State.setReg_mem (x : Reg) (w : Byte) : (s.setReg x w).mem = s.mem := rfl
@[simp] theorem State.setReg_v (x : Reg) (w : Byte) : (s.setReg x w).v = s.v.set x w := rfl
@[simp] theorem State.setReg_i (x : Reg) (w : Byte) : (s.setReg x w).i = s.i := rfl
@[simp] theorem State.setReg_pc (x : Reg) (w : Byte) : (s.setReg x w).pc = s.pc := rfl
@[simp] theorem State.setReg_stack (x : Reg) (w : Byte) : (s.setReg x w).stack = s.stack := rfl
@[simp] theorem State.setReg_sp (x : Reg) (w : Byte) : (s.setReg x w).sp = s.sp := rfl
@[simp] theorem State.setReg_dt (x : Reg) (w : Byte) : (s.setReg x w).dt = s.dt := rfl
@[simp] theorem State.setReg_st (x : Reg) (w : Byte) : (s.setReg x w).st = s.st := rfl
@[simp] theorem State.setReg_keys (x : Reg) (w : Byte) : (s.setReg x w).keys = s.keys := rfl
@[simp] theorem State.setReg_fb (x : Reg) (w : Byte) : (s.setReg x w).fb = s.fb := rfl
@[simp] theorem State.setReg_waiting (x : Reg) (w : Byte) : (s.setReg x w).waiting = s.waiting := rfl
@[simp] theorem State.setReg_waitReg (x : Reg) (w : Byte) : (s.setReg x w).waitReg = s.waitReg := rfl
@[simp] theorem State.setReg_fault (x : Reg) (w : Byte) : (s.setReg x w).fault = s.fault := rfl
@[simp] theorem State.setReg_drawCount (x : Reg) (w : Byte) : (s.setReg x w).drawCount = s.drawCount := rfl

/-! ### State.setIndex -/

@[simp] theorem State.setIndex_mem (w : Word) : (s.setIndex w).mem = s.mem := rfl
@[simp] theorem State.setIndex_v (w : Word) : (s.setIndex w).v = s.v := rfl
@[simp] theorem State.setIndex_i (w : Word) : (s.setIndex w).i = mask12 w := rfl
@[simp] theorem State.setIndex_pc (w : Word) : (s.setIndex w).pc = s.pc := rfl
@[simp] theorem State.setIndex_stack (w : Word) : (s.setIndex w).stack = s.stack := rfl
@[simp] theorem State.setIndex_sp (w : Word) : (s.setIndex w).sp = s.sp := rfl
@[simp] theorem State.setIndex_dt (w : Word) : (s.setIndex w).dt = s.dt := rfl
@[simp] theorem State.setIndex_st (w : Word) : (s.setIndex w).st = s.st := rfl
@[simp] theorem State.setIndex_keys (w : Word) : (s.setIndex w).keys = s.keys := rfl
@[simp] theorem State.setIndex_fb (w : Word) : (s.setIndex w).fb = s.fb := rfl
@[simp] theorem State.setIndex_waiting (w : Word) : (s.setIndex w).waiting = s.waiting := rfl
@[simp] theorem State.setIndex_waitReg (w : Word) : (s.setIndex w).waitReg = s.waitReg := rfl
@[simp] theorem State.setIndex_fault (w : Word) : (s.setIndex w).fault = s.fault := rfl
@[simp] theorem State.setIndex_drawCount (w : Word) : (s.setIndex w).drawCount = s.drawCount := rfl

/-! ### State.setPc -/

@[simp] theorem State.setPc_mem (w : Word) : (s.setPc w).mem = s.mem := rfl
@[simp] theorem State.setPc_v (w : Word) : (s.setPc w).v = s.v := rfl
@[simp] theorem State.setPc_i (w : Word) : (s.setPc w).i = s.i := rfl
@[simp] theorem State.setPc_pc (w : Word) : (s.setPc w).pc = mask12 w := rfl
@[simp] theorem State.setPc_stack (w : Word) : (s.setPc w).stack = s.stack := rfl
@[simp] theorem State.setPc_sp (w : Word) : (s.setPc w).sp = s.sp := rfl
@[simp] theorem State.setPc_dt (w : Word) : (s.setPc w).dt = s.dt := rfl
@[simp] theorem State.setPc_st (w : Word) : (s.setPc w).st = s.st := rfl
@[simp] theorem State.setPc_keys (w : Word) : (s.setPc w).keys = s.keys := rfl
@[simp] theorem State.setPc_fb (w : Word) : (s.setPc w).fb = s.fb := rfl
@[simp] theorem State.setPc_waiting (w : Word) : (s.setPc w).waiting = s.waiting := rfl
@[simp] theorem State.setPc_waitReg (w : Word) : (s.setPc w).waitReg = s.waitReg := rfl
@[simp] theorem State.setPc_fault (w : Word) : (s.setPc w).fault = s.fault := rfl
@[simp] theorem State.setPc_drawCount (w : Word) : (s.setPc w).drawCount = s.drawCount := rfl

/-! ### State.advance -/

@[simp] theorem State.advance_mem : (s.advance).mem = s.mem := rfl
@[simp] theorem State.advance_v : (s.advance).v = s.v := rfl
@[simp] theorem State.advance_i : (s.advance).i = s.i := rfl
@[simp] theorem State.advance_pc : (s.advance).pc = s.nextPc := rfl
@[simp] theorem State.advance_stack : (s.advance).stack = s.stack := rfl
@[simp] theorem State.advance_sp : (s.advance).sp = s.sp := rfl
@[simp] theorem State.advance_dt : (s.advance).dt = s.dt := rfl
@[simp] theorem State.advance_st : (s.advance).st = s.st := rfl
@[simp] theorem State.advance_keys : (s.advance).keys = s.keys := rfl
@[simp] theorem State.advance_fb : (s.advance).fb = s.fb := rfl
@[simp] theorem State.advance_waiting : (s.advance).waiting = s.waiting := rfl
@[simp] theorem State.advance_waitReg : (s.advance).waitReg = s.waitReg := rfl
@[simp] theorem State.advance_fault : (s.advance).fault = s.fault := rfl
@[simp] theorem State.advance_drawCount : (s.advance).drawCount = s.drawCount := rfl

/-! ### State.skipIf -/

@[simp] theorem State.skipIf_mem (c : Bool) : (s.skipIf c).mem = s.mem := rfl
@[simp] theorem State.skipIf_v (c : Bool) : (s.skipIf c).v = s.v := rfl
@[simp] theorem State.skipIf_i (c : Bool) : (s.skipIf c).i = s.i := rfl
@[simp] theorem State.skipIf_pc (c : Bool) : (s.skipIf c).pc = if c then s.skipPc else s.nextPc := rfl
@[simp] theorem State.skipIf_stack (c : Bool) : (s.skipIf c).stack = s.stack := rfl
@[simp] theorem State.skipIf_sp (c : Bool) : (s.skipIf c).sp = s.sp := rfl
@[simp] theorem State.skipIf_dt (c : Bool) : (s.skipIf c).dt = s.dt := rfl
@[simp] theorem State.skipIf_st (c : Bool) : (s.skipIf c).st = s.st := rfl
@[simp] theorem State.skipIf_keys (c : Bool) : (s.skipIf c).keys = s.keys := rfl
@[simp] theorem State.skipIf_fb (c : Bool) : (s.skipIf c).fb = s.fb := rfl
@[simp] theorem State.skipIf_waiting (c : Bool) : (s.skipIf c).waiting = s.waiting := rfl
@[simp] theorem State.skipIf_waitReg (c : Bool) : (s.skipIf c).waitReg = s.waitReg := rfl
@[simp] theorem State.skipIf_fault (c : Bool) : (s.skipIf c).fault = s.fault := rfl
@[simp] theorem State.skipIf_drawCount (c : Bool) : (s.skipIf c).drawCount = s.drawCount := rfl

/-! ### State.setFlag -/

@[simp] theorem State.setFlag_mem (c : Bool) : (s.setFlag c).mem = s.mem := rfl
@[simp] theorem State.setFlag_v (c : Bool) : (s.setFlag c).v = s.v.set flagReg (flagByte c) := rfl
@[simp] theorem State.setFlag_i (c : Bool) : (s.setFlag c).i = s.i := rfl
@[simp] theorem State.setFlag_pc (c : Bool) : (s.setFlag c).pc = s.pc := rfl
@[simp] theorem State.setFlag_stack (c : Bool) : (s.setFlag c).stack = s.stack := rfl
@[simp] theorem State.setFlag_sp (c : Bool) : (s.setFlag c).sp = s.sp := rfl
@[simp] theorem State.setFlag_dt (c : Bool) : (s.setFlag c).dt = s.dt := rfl
@[simp] theorem State.setFlag_st (c : Bool) : (s.setFlag c).st = s.st := rfl
@[simp] theorem State.setFlag_keys (c : Bool) : (s.setFlag c).keys = s.keys := rfl
@[simp] theorem State.setFlag_fb (c : Bool) : (s.setFlag c).fb = s.fb := rfl
@[simp] theorem State.setFlag_waiting (c : Bool) : (s.setFlag c).waiting = s.waiting := rfl
@[simp] theorem State.setFlag_waitReg (c : Bool) : (s.setFlag c).waitReg = s.waitReg := rfl
@[simp] theorem State.setFlag_fault (c : Bool) : (s.setFlag c).fault = s.fault := rfl
@[simp] theorem State.setFlag_drawCount (c : Bool) : (s.setFlag c).drawCount = s.drawCount := rfl

/-! ### State.setResultAndFlag -/

@[simp] theorem State.setResultAndFlag_mem (x : Reg) (w : Byte) (c : Bool) : (s.setResultAndFlag x w c).mem = s.mem := rfl
@[simp] theorem State.setResultAndFlag_v (x : Reg) (w : Byte) (c : Bool) : (s.setResultAndFlag x w c).v = (s.v.set x w).set flagReg (flagByte c) := rfl
@[simp] theorem State.setResultAndFlag_i (x : Reg) (w : Byte) (c : Bool) : (s.setResultAndFlag x w c).i = s.i := rfl
@[simp] theorem State.setResultAndFlag_pc (x : Reg) (w : Byte) (c : Bool) : (s.setResultAndFlag x w c).pc = s.pc := rfl
@[simp] theorem State.setResultAndFlag_stack (x : Reg) (w : Byte) (c : Bool) : (s.setResultAndFlag x w c).stack = s.stack := rfl
@[simp] theorem State.setResultAndFlag_sp (x : Reg) (w : Byte) (c : Bool) : (s.setResultAndFlag x w c).sp = s.sp := rfl
@[simp] theorem State.setResultAndFlag_dt (x : Reg) (w : Byte) (c : Bool) : (s.setResultAndFlag x w c).dt = s.dt := rfl
@[simp] theorem State.setResultAndFlag_st (x : Reg) (w : Byte) (c : Bool) : (s.setResultAndFlag x w c).st = s.st := rfl
@[simp] theorem State.setResultAndFlag_keys (x : Reg) (w : Byte) (c : Bool) : (s.setResultAndFlag x w c).keys = s.keys := rfl
@[simp] theorem State.setResultAndFlag_fb (x : Reg) (w : Byte) (c : Bool) : (s.setResultAndFlag x w c).fb = s.fb := rfl
@[simp] theorem State.setResultAndFlag_waiting (x : Reg) (w : Byte) (c : Bool) : (s.setResultAndFlag x w c).waiting = s.waiting := rfl
@[simp] theorem State.setResultAndFlag_waitReg (x : Reg) (w : Byte) (c : Bool) : (s.setResultAndFlag x w c).waitReg = s.waitReg := rfl
@[simp] theorem State.setResultAndFlag_fault (x : Reg) (w : Byte) (c : Bool) : (s.setResultAndFlag x w c).fault = s.fault := rfl
@[simp] theorem State.setResultAndFlag_drawCount (x : Reg) (w : Byte) (c : Bool) : (s.setResultAndFlag x w c).drawCount = s.drawCount := rfl

/-! ### State.memWrite -/

@[simp] theorem State.memWrite_mem (a : Nat) (b : Byte) : (s.memWrite a b).mem = s.mem.set (maskAddr a) b := rfl
@[simp] theorem State.memWrite_v (a : Nat) (b : Byte) : (s.memWrite a b).v = s.v := rfl
@[simp] theorem State.memWrite_i (a : Nat) (b : Byte) : (s.memWrite a b).i = s.i := rfl
@[simp] theorem State.memWrite_pc (a : Nat) (b : Byte) : (s.memWrite a b).pc = s.pc := rfl
@[simp] theorem State.memWrite_stack (a : Nat) (b : Byte) : (s.memWrite a b).stack = s.stack := rfl
@[simp] theorem State.memWrite_sp (a : Nat) (b : Byte) : (s.memWrite a b).sp = s.sp := rfl
@[simp] theorem State.memWrite_dt (a : Nat) (b : Byte) : (s.memWrite a b).dt = s.dt := rfl
@[simp] theorem State.memWrite_st (a : Nat) (b : Byte) : (s.memWrite a b).st = s.st := rfl
@[simp] theorem State.memWrite_keys (a : Nat) (b : Byte) : (s.memWrite a b).keys = s.keys := rfl
@[simp] theorem State.memWrite_fb (a : Nat) (b : Byte) : (s.memWrite a b).fb = s.fb := rfl
@[simp] theorem State.memWrite_waiting (a : Nat) (b : Byte) : (s.memWrite a b).waiting = s.waiting := rfl
@[simp] theorem State.memWrite_waitReg (a : Nat) (b : Byte) : (s.memWrite a b).waitReg = s.waitReg := rfl
@[simp] theorem State.memWrite_fault (a : Nat) (b : Byte) : (s.memWrite a b).fault = s.fault := rfl
@[simp] theorem State.memWrite_drawCount (a : Nat) (b : Byte) : (s.memWrite a b).drawCount = s.drawCount := rfl

/-! ### State.countDraw -/

@[simp] theorem State.countDraw_mem : (s.countDraw).mem = s.mem := rfl
@[simp] theorem State.countDraw_v : (s.countDraw).v = s.v := rfl
@[simp] theorem State.countDraw_i : (s.countDraw).i = s.i := rfl
@[simp] theorem State.countDraw_pc : (s.countDraw).pc = s.pc := rfl
@[simp] theorem State.countDraw_stack : (s.countDraw).stack = s.stack := rfl
@[simp] theorem State.countDraw_sp : (s.countDraw).sp = s.sp := rfl
@[simp] theorem State.countDraw_dt : (s.countDraw).dt = s.dt := rfl
@[simp] theorem State.countDraw_st : (s.countDraw).st = s.st := rfl
@[simp] theorem State.countDraw_keys : (s.countDraw).keys = s.keys := rfl
@[simp] theorem State.countDraw_fb : (s.countDraw).fb = s.fb := rfl
@[simp] theorem State.countDraw_waiting : (s.countDraw).waiting = s.waiting := rfl
@[simp] theorem State.countDraw_waitReg : (s.countDraw).waitReg = s.waitReg := rfl
@[simp] theorem State.countDraw_fault : (s.countDraw).fault = s.fault := rfl
@[simp] theorem State.countDraw_drawCount : (s.countDraw).drawCount = s.drawCount + 1 := rfl

/-! ### State.load -/

@[simp] theorem State.load_mem (image : Image) : (s.load image).mem = Memory.ofBytes 0 image.toList := rfl
@[simp] theorem State.load_v (image : Image) : (s.load image).v = s.v := rfl
@[simp] theorem State.load_i (image : Image) : (s.load image).i = s.i := rfl
@[simp] theorem State.load_pc (image : Image) : (s.load image).pc = s.pc := rfl
@[simp] theorem State.load_stack (image : Image) : (s.load image).stack = s.stack := rfl
@[simp] theorem State.load_sp (image : Image) : (s.load image).sp = s.sp := rfl
@[simp] theorem State.load_dt (image : Image) : (s.load image).dt = s.dt := rfl
@[simp] theorem State.load_st (image : Image) : (s.load image).st = s.st := rfl
@[simp] theorem State.load_keys (image : Image) : (s.load image).keys = s.keys := rfl
@[simp] theorem State.load_fb (image : Image) : (s.load image).fb = s.fb := rfl
@[simp] theorem State.load_waiting (image : Image) : (s.load image).waiting = s.waiting := rfl
@[simp] theorem State.load_waitReg (image : Image) : (s.load image).waitReg = s.waitReg := rfl
@[simp] theorem State.load_fault (image : Image) : (s.load image).fault = s.fault := rfl
@[simp] theorem State.load_drawCount (image : Image) : (s.load image).drawCount = s.drawCount := rfl

/-! ### State.keySet -/

@[simp] theorem State.keySet_mem (k : Key) (b : Bool) : (s.keySet k b).mem = s.mem := rfl
@[simp] theorem State.keySet_v (k : Key) (b : Bool) : (s.keySet k b).v = s.v := rfl
@[simp] theorem State.keySet_i (k : Key) (b : Bool) : (s.keySet k b).i = s.i := rfl
@[simp] theorem State.keySet_pc (k : Key) (b : Bool) : (s.keySet k b).pc = s.pc := rfl
@[simp] theorem State.keySet_stack (k : Key) (b : Bool) : (s.keySet k b).stack = s.stack := rfl
@[simp] theorem State.keySet_sp (k : Key) (b : Bool) : (s.keySet k b).sp = s.sp := rfl
@[simp] theorem State.keySet_dt (k : Key) (b : Bool) : (s.keySet k b).dt = s.dt := rfl
@[simp] theorem State.keySet_st (k : Key) (b : Bool) : (s.keySet k b).st = s.st := rfl
@[simp] theorem State.keySet_keys (k : Key) (b : Bool) : (s.keySet k b).keys = s.keys.set k b := rfl
@[simp] theorem State.keySet_fb (k : Key) (b : Bool) : (s.keySet k b).fb = s.fb := rfl
@[simp] theorem State.keySet_waiting (k : Key) (b : Bool) : (s.keySet k b).waiting = s.waiting := rfl
@[simp] theorem State.keySet_waitReg (k : Key) (b : Bool) : (s.keySet k b).waitReg = s.waitReg := rfl
@[simp] theorem State.keySet_fault (k : Key) (b : Bool) : (s.keySet k b).fault = s.fault := rfl
@[simp] theorem State.keySet_drawCount (k : Key) (b : Bool) : (s.keySet k b).drawCount = s.drawCount := rfl

/-! ### State.dtSet -/

@[simp] theorem State.dtSet_mem (w : Byte) : (s.dtSet w).mem = s.mem := rfl
@[simp] theorem State.dtSet_v (w : Byte) : (s.dtSet w).v = s.v := rfl
@[simp] theorem State.dtSet_i (w : Byte) : (s.dtSet w).i = s.i := rfl
@[simp] theorem State.dtSet_pc (w : Byte) : (s.dtSet w).pc = s.pc := rfl
@[simp] theorem State.dtSet_stack (w : Byte) : (s.dtSet w).stack = s.stack := rfl
@[simp] theorem State.dtSet_sp (w : Byte) : (s.dtSet w).sp = s.sp := rfl
@[simp] theorem State.dtSet_dt (w : Byte) : (s.dtSet w).dt = w := rfl
@[simp] theorem State.dtSet_st (w : Byte) : (s.dtSet w).st = s.st := rfl
@[simp] theorem State.dtSet_keys (w : Byte) : (s.dtSet w).keys = s.keys := rfl
@[simp] theorem State.dtSet_fb (w : Byte) : (s.dtSet w).fb = s.fb := rfl
@[simp] theorem State.dtSet_waiting (w : Byte) : (s.dtSet w).waiting = s.waiting := rfl
@[simp] theorem State.dtSet_waitReg (w : Byte) : (s.dtSet w).waitReg = s.waitReg := rfl
@[simp] theorem State.dtSet_fault (w : Byte) : (s.dtSet w).fault = s.fault := rfl
@[simp] theorem State.dtSet_drawCount (w : Byte) : (s.dtSet w).drawCount = s.drawCount := rfl

/-! ### State.stSet -/

@[simp] theorem State.stSet_mem (w : Byte) : (s.stSet w).mem = s.mem := rfl
@[simp] theorem State.stSet_v (w : Byte) : (s.stSet w).v = s.v := rfl
@[simp] theorem State.stSet_i (w : Byte) : (s.stSet w).i = s.i := rfl
@[simp] theorem State.stSet_pc (w : Byte) : (s.stSet w).pc = s.pc := rfl
@[simp] theorem State.stSet_stack (w : Byte) : (s.stSet w).stack = s.stack := rfl
@[simp] theorem State.stSet_sp (w : Byte) : (s.stSet w).sp = s.sp := rfl
@[simp] theorem State.stSet_dt (w : Byte) : (s.stSet w).dt = s.dt := rfl
@[simp] theorem State.stSet_st (w : Byte) : (s.stSet w).st = w := rfl
@[simp] theorem State.stSet_keys (w : Byte) : (s.stSet w).keys = s.keys := rfl
@[simp] theorem State.stSet_fb (w : Byte) : (s.stSet w).fb = s.fb := rfl
@[simp] theorem State.stSet_waiting (w : Byte) : (s.stSet w).waiting = s.waiting := rfl
@[simp] theorem State.stSet_waitReg (w : Byte) : (s.stSet w).waitReg = s.waitReg := rfl
@[simp] theorem State.stSet_fault (w : Byte) : (s.stSet w).fault = s.fault := rfl
@[simp] theorem State.stSet_drawCount (w : Byte) : (s.stSet w).drawCount = s.drawCount := rfl

/-! ### Reading a register after a write -/

@[simp] theorem State.reg_setReg (x r : Reg) (w : Byte) :
    (s.setReg x w).reg r = if r = x then w else s.reg r := by
  simp only [State.reg, State.setReg, Fin.getElem_fin, Vector.getElem_set, Fin.val_inj, eq_comm]

@[simp] theorem State.reg_setFlag (c : Bool) (r : Reg) :
    (s.setFlag c).reg r = if r = flagReg then flagByte c else s.reg r := by
  simp only [State.setFlag, State.reg_setReg]

@[simp] theorem State.reg_setResultAndFlag (x r : Reg) (w : Byte) (c : Bool) :
    (s.setResultAndFlag x w c).reg r = if r = flagReg then flagByte c else if r = x then w else s.reg r := by
  simp only [State.setResultAndFlag, State.reg_setFlag, State.reg_setReg]

/-- A read of a register depends on the register file only. -/
theorem State.reg_congr {s t : State} (h : t.v = s.v) (r : Reg) : t.reg r = s.reg r := by
  simp only [State.reg, h]

/-- A read of memory depends on the memory only. -/
theorem State.memRead_congr {s t : State} (h : t.mem = s.mem) (a : Nat) : t.memRead a = s.memRead a := by
  simp only [State.memRead, h]

end Sys2Proof.Machine
end

