-- ==== Sys2Proof/Laws/Memory.lean ====
section
/-! SUPPORT. The laws of memory: read after write, and that every memory operation keeps the canonical form. -/

namespace Sys2Proof.Machine

@[simp] theorem params_memSize : params.memSize = 4096 := rfl

theorem maskAddr_eq (a : Nat) : maskAddr a = a % 4096 := rfl

theorem maskAddr_lt (a : Nat) : maskAddr a < 4096 := Nat.mod_lt _ (by decide)

@[simp] theorem maskAddr_maskAddr (a : Nat) : maskAddr (maskAddr a) = maskAddr a := Nat.mod_mod _ _

/-! ### Reading what was written -/

theorem Memory.get_putFront (m : Memory) (a b : Nat) (v : Byte) (h : b = a → Memory.get m a = Memory.unlisted a) :
    Memory.get (Memory.putFront a v m) b = if b = a then v else Memory.get m b := by
  unfold Memory.putFront
  split
  · split
    · subst b; rw [h rfl]; simp_all
    · rfl
  · rfl

theorem Memory.wfFrom_mono {lo lo' : Nat} (h : lo ≤ lo') {m : Memory} (w : Memory.wfFrom lo' m = true) :
    Memory.wfFrom lo m = true := by
  cases m with
  | nil => rfl
  | cons c m =>
    simp only [Memory.wfFrom, Bool.and_eq_true, decide_eq_true_eq] at w ⊢
    exact ⟨⟨⟨by omega, w.1.1.2⟩, w.1.2⟩, w.2⟩

/-- Below the addresses of a canonical list every cell is unlisted. -/
theorem Memory.get_below {lo a : Nat} (h : a < lo) {m : Memory} (w : Memory.wfFrom lo m = true) :
    Memory.get m a = Memory.unlisted a := by
  induction m generalizing lo with
  | nil => rfl
  | cons c m ih =>
    simp only [Memory.wfFrom, Bool.and_eq_true, decide_eq_true_eq] at w
    simp only [Memory.get]
    rw [if_neg (by omega), ih (by omega : a < c.1 + 1) w.2]

/-- A write gives the written byte at its address and leaves every other address alone. -/
theorem Memory.get_set {lo : Nat} {m : Memory} (w : Memory.wfFrom lo m = true) (a b : Nat) (v : Byte) :
    Memory.get (Memory.set m a v) b = if b = a then v else Memory.get m b := by
  induction m generalizing lo with
  | nil => exact Memory.get_putFront _ _ _ _ fun _ => rfl
  | cons c m ih =>
    have wc := w
    simp only [Memory.wfFrom, Bool.and_eq_true, decide_eq_true_eq] at w
    obtain ⟨x, y⟩ := c
    simp only [Memory.set]
    by_cases h1 : a < x
    · rw [if_pos h1]
      refine Memory.get_putFront _ _ _ _ fun _ => Memory.get_below (lo := x) h1 ?_
      simp only [Memory.wfFrom, Bool.and_eq_true, decide_eq_true_eq]
      exact ⟨⟨⟨by omega, w.1.1.2⟩, w.1.2⟩, w.2⟩
    · rw [if_neg h1]
      by_cases h2 : a = x
      · subst h2
        rw [if_pos rfl, Memory.get_putFront _ _ _ _ fun _ => Memory.get_below (Nat.lt_succ_self _) w.2]
        simp only [Memory.get]
        split_ifs <;> rfl
      · rw [if_neg h2]
        simp only [Memory.get, ih w.2]
        split_ifs <;> first | rfl | omega

/-! ### The canonical form is kept -/

theorem Memory.wfFrom_putFront {lo a : Nat} {v : Byte} {m : Memory} (hlo : lo ≤ a) (ha : a < 4096)
    (w : Memory.wfFrom (a + 1) m = true) : Memory.wfFrom lo (Memory.putFront a v m) = true := by
  unfold Memory.putFront
  split
  · exact Memory.wfFrom_mono (by omega) w
  · simp_all [Memory.wfFrom]

theorem Memory.wfFrom_set {lo a : Nat} {v : Byte} {m : Memory} (hlo : lo ≤ a) (ha : a < 4096)
    (w : Memory.wfFrom lo m = true) : Memory.wfFrom lo (Memory.set m a v) = true := by
  induction m generalizing lo with
  | nil => exact Memory.wfFrom_putFront hlo ha rfl
  | cons c m ih =>
    obtain ⟨x, y⟩ := c
    have wc := w
    simp only [Memory.wfFrom, Bool.and_eq_true, decide_eq_true_eq] at w
    simp only [Memory.set]
    split_ifs with h1 h2
    · refine Memory.wfFrom_putFront hlo ha ?_
      simp only [Memory.wfFrom, Bool.and_eq_true, decide_eq_true_eq]
      exact ⟨⟨⟨by omega, w.1.1.2⟩, w.1.2⟩, w.2⟩
    · subst h2; exact Memory.wfFrom_putFront hlo ha w.2
    · simp only [Memory.wfFrom, Bool.and_eq_true, decide_eq_true_eq]
      exact ⟨w.1, ih (by omega) w.2⟩

/-- A write inside the address space keeps the canonical form. -/
theorem Memory.wf_set {m : Memory} (w : m.wf = true) {a : Nat} (ha : a < 4096) (v : Byte) :
    (m.set a v).wf = true := Memory.wfFrom_set (Nat.zero_le _) ha w

theorem Memory.wfFrom_ofBytes (bs : List Byte) (a : Nat) (h : a + bs.length ≤ 4096) :
    Memory.wfFrom a (Memory.ofBytes a bs) = true := by
  induction bs generalizing a with
  | nil => rfl
  | cons b bs ih =>
    simp only [List.length_cons] at h
    exact Memory.wfFrom_putFront (Nat.le_refl _) (by omega) (ih (a + 1) (by omega))

/-- The bytes of a list lie at ascending addresses; every other address is unlisted. -/
theorem Memory.get_ofBytes (bs : List Byte) (a : Nat) (h : a + bs.length ≤ 4096) (k : Nat) :
    Memory.get (Memory.ofBytes a bs) (a + k) = bs.getD k (Memory.unlisted (a + k)) := by
  induction bs generalizing a k with
  | nil => simp [Memory.ofBytes, Memory.get]
  | cons b bs ih =>
    simp only [List.length_cons] at h
    have w := Memory.wfFrom_ofBytes bs (a + 1) (by omega)
    simp only [Memory.ofBytes]
    rw [Memory.get_putFront _ _ _ _ fun _ => Memory.get_below (Nat.lt_succ_self _) w]
    cases k with
    | zero => simp
    | succ k =>
      have := ih (a + 1) (by omega) k
      rw [if_neg (by omega)]
      simpa [Nat.add_assoc, Nat.add_comm 1 k] using this

/-! ### The operations of the state -/

theorem State.memWrite_wf {s : State} (w : s.mem.wf = true) (a : Nat) (v : Byte) :
    (s.memWrite a v).mem.wf = true := Memory.wf_set w (maskAddr_lt a) v

theorem State.memRead_after_memWrite {s : State} (w : s.mem.wf = true) (a b : Nat) (v : Byte) :
    (s.memWrite a v).memRead b = if maskAddr b = maskAddr a then v else s.memRead b :=
  Memory.get_set w _ _ _

/-- Writing bytes changes memory only. -/
theorem State.memWriteBytes_eq (bs : List Byte) (s : State) (a : Nat) :
    s.memWriteBytes a bs = { s with mem := (s.memWriteBytes a bs).mem } := by
  induction bs generalizing s a with
  | nil => rfl
  | cons b bs ih => simp only [State.memWriteBytes]; rw [ih]; rfl

theorem State.memWriteBytes_wf (bs : List Byte) {s : State} (w : s.mem.wf = true) (a : Nat) :
    (s.memWriteBytes a bs).mem.wf = true := by
  induction bs generalizing s a with
  | nil => exact w
  | cons b bs ih => exact ih (State.memWrite_wf w a b) (a + 1)

/-- Bytes written at ascending addresses: an address whose distance above `a`, modulo the address space, is below the
length reads the byte at that distance; every other address reads as before. -/
theorem State.memRead_after_memWriteBytes (bs : List Byte) {s : State} (w : s.mem.wf = true) (a b : Nat)
    (hl : bs.length ≤ 4096) :
    (s.memWriteBytes a bs).memRead b = bs.getD ((b % 4096 + 4096 - a % 4096) % 4096) (s.memRead b) := by
  induction bs generalizing s a with
  | nil => simp [State.memWriteBytes]
  | cons v bs ih =>
    simp only [List.length_cons] at hl
    simp only [State.memWriteBytes]
    rw [ih (State.memWrite_wf w a v) (a + 1) (by omega), State.memRead_after_memWrite w]
    by_cases h : b % 4096 = a % 4096
    · have e1 : (b % 4096 + 4096 - (a + 1) % 4096) % 4096 = 4095 := by omega
      have e2 : (b % 4096 + 4096 - a % 4096) % 4096 = 0 := by omega
      rw [e1, e2, if_pos (show maskAddr b = maskAddr a from h)]
      simp [List.getD, List.getElem?_eq_none (by omega : bs.length ≤ 4095)]
    · obtain ⟨d, hd⟩ : ∃ d, (b % 4096 + 4096 - a % 4096) % 4096 = d + 1 :=
        ⟨(b % 4096 + 4096 - a % 4096) % 4096 - 1, by omega⟩
      have e1 : (b % 4096 + 4096 - (a + 1) % 4096) % 4096 = d := by omega
      rw [e1, hd, if_neg (show ¬ maskAddr b = maskAddr a from h)]
      simp

/-- The load port keeps the canonical form. -/
theorem State.load_wf (s : State) (image : Image) : (s.load image).mem.wf = true :=
  Memory.wfFrom_ofBytes _ _ (by simp)

theorem State.reset_wf : State.reset.mem.wf = true := rfl

end Sys2Proof.Machine
end

