-- ==== Sys2Proof/Laws/Ops.lean ====
section
/-! SUPPORT. One lemma per shared operation that says what it can do. -/

namespace Sys2Proof.Machine

/-! ### Twelve-bit reduction -/

theorem mask12_toNat (w : Word) : (mask12 w).toNat = w.toNat % 4096 := by
  simp only [mask12, BitVec.toNat_and]
  exact Nat.and_two_pow_sub_one_eq_mod w.toNat 12

theorem mask12_le (w : Word) : (mask12 w).toNat ≤ 0xFFF := by
  rw [mask12_toNat]; omega

theorem mask12_of_le {w : Word} (h : w.toNat ≤ 0xFFF) : mask12 w = w := by
  apply BitVec.eq_of_toNat_eq
  rw [mask12_toNat]; omega

theorem mask12_eq (w : Word) : mask12 w = BitVec.ofNat 16 (w.toNat % 4096) := by
  apply BitVec.eq_of_toNat_eq
  rw [mask12_toNat, BitVec.toNat_ofNat]
  omega

theorem addrLiteral_toNat (nnn : Addr) : (addrLiteral nnn).toNat = nnn.toNat := by
  simp only [addrLiteral, BitVec.toNat_setWidth]
  have := nnn.isLt
  omega

@[simp] theorem mask12_addrLiteral (nnn : Addr) : mask12 (addrLiteral nnn) = addrLiteral nnn :=
  mask12_of_le (by rw [addrLiteral_toNat]; have := nnn.isLt; omega)

theorem zextByte_toNat (b : Byte) : (zextByte b).toNat = b.toNat := by
  simp only [zextByte, BitVec.toNat_setWidth]
  have := b.isLt
  omega

theorem State.nextPc_toNat (s : State) : s.nextPc.toNat = (s.pc.toNat + 2) % 4096 := by
  simp only [State.nextPc, mask12_toNat, BitVec.toNat_add, BitVec.reduceToNat]
  omega

theorem State.skipPc_toNat (s : State) : s.skipPc.toNat = (s.pc.toNat + 4) % 4096 := by
  simp only [State.skipPc, mask12_toNat, BitVec.toNat_add, BitVec.reduceToNat]
  omega

/-- `NEXT` as a number (R8). -/
theorem State.nextPc_eq (s : State) : s.nextPc = BitVec.ofNat 16 ((s.pc.toNat + 2) % 4096) := by
  apply BitVec.eq_of_toNat_eq
  rw [State.nextPc_toNat, BitVec.toNat_ofNat]
  omega

/-- `SKIP` as a number (R8). -/
theorem State.skipPc_eq (s : State) : s.skipPc = BitVec.ofNat 16 ((s.pc.toNat + 4) % 4096) := by
  apply BitVec.eq_of_toNat_eq
  rw [State.skipPc_toNat, BitVec.toNat_ofNat]
  omega

/-! ### Flags: each as its value in numbers (R169 to R173) -/

theorem flagByte_carryOut (a b : Byte) : flagByte (carryOut a b) = if a.toNat + b.toNat > 255 then 1 else 0 := by
  by_cases h : a.toNat + b.toNat > 255 <;> simp [flagByte, carryOut, h]

theorem flagByte_noBorrow (a b : Byte) : flagByte (noBorrow a b) = if a.toNat ≥ b.toNat then 1 else 0 := by
  by_cases h : a.toNat ≥ b.toNat <;> simp [flagByte, noBorrow, h]

theorem flagByte_shiftedOutRight (a : Byte) : flagByte (shiftedOutRight a) = BitVec.ofNat 8 (a.toNat % 2) := by
  revert a; decide

theorem flagByte_shiftedOutLeft (a : Byte) : flagByte (shiftedOutLeft a) = BitVec.ofNat 8 (a.toNat / 128) := by
  revert a; decide

/-! ### Sums and products that become addresses, as numbers (R145, R202, R203) -/

theorem State.offRegister_toNat (s : State) (nnn : Addr) :
    (s.offRegister nnn).toNat = (s.reg 0).toNat + nnn.toNat := by
  have := nnn.isLt
  have := (s.reg 0).isLt
  rw [State.offRegister, BitVec.toNat_add, zextByte_toNat, addrLiteral_toNat]
  omega

theorem State.glyphAddr_toNat (s : State) (x : Reg) : (s.glyphAddr x).toNat = (s.reg x).toNat * 5 := by
  have := (s.reg x).isLt
  rw [State.glyphAddr, BitVec.toNat_mul, zextByte_toNat, show params.glyphStride = 5 from rfl, BitVec.toNat_ofNat]
  omega

/-! ### Call stack -/

theorem State.push_of_lt {s : State} (h : s.sp.val < 16) (w : Word) :
    s.push w = some { s with stack := s.stack.set s.sp.val w, sp := ⟨s.sp.val + 1, by omega⟩ } := dif_pos h

theorem State.push_of_full {s : State} (h : s.sp.val = 16) (w : Word) : s.push w = none := dif_neg (by omega)

/-- Everything a push can do. -/
theorem State.push_cases (s : State) (w : Word) :
    (s.sp.val = 16 ∧ s.push w = none) ∨
    (∃ h : s.sp.val < 16,
      s.push w = some { s with stack := s.stack.set s.sp.val w, sp := ⟨s.sp.val + 1, by omega⟩ }) := by
  by_cases h : s.sp.val < 16
  · exact .inr ⟨h, State.push_of_lt h w⟩
  · exact .inl ⟨by omega, dif_neg h⟩

theorem State.pop_of_pos {s : State} (h : 0 < s.sp.val) :
    s.pop = some (s.stack[s.sp.val - 1]'(by omega), { s with sp := ⟨s.sp.val - 1, by omega⟩ }) := if_neg (by omega)

theorem State.pop_of_empty {s : State} (h : s.sp.val = 0) : s.pop = none := if_pos h

/-- Everything a pop can do. -/
theorem State.pop_cases (s : State) :
    (s.sp.val = 0 ∧ s.pop = none) ∨
    (0 < s.sp.val ∧
      s.pop = some (s.stack[s.sp.val - 1]'(by omega), { s with sp := ⟨s.sp.val - 1, by omega⟩ })) := by
  by_cases h : s.sp.val = 0
  · exact .inl ⟨h, State.pop_of_empty h⟩
  · exact .inr ⟨by omega, State.pop_of_pos (by omega)⟩

/-! ### Keypad -/

theorem keyIndex_of_le {b : Byte} (h : b.toNat ≤ 15) : keyIndex b = some ⟨b.toNat, by omega⟩ := dif_pos (by omega)

theorem keyIndex_of_gt {b : Byte} (h : 15 < b.toNat) : keyIndex b = none := dif_neg (by omega)

theorem State.firstKey_eq_none {s : State} : s.firstKey = none ↔ ∀ k, s.key k = false := by
  simp [State.firstKey]

/-- The key scan finds the least key that is down. -/
theorem State.firstKey_eq_some {s : State} {k : Key} :
    s.firstKey = some k ↔ s.key k = true ∧ ∀ j < k, s.key j = false := by
  constructor
  · intro h
    obtain ⟨hk, as, bs, e, hn⟩ := List.find?_eq_some_iff_append.1 h
    refine ⟨hk, fun j hj => ?_⟩
    have hp : (List.finRange 16).Pairwise (· < ·) := List.pairwise_lt_finRange 16
    have hm : j ∈ as ++ k :: bs := e ▸ List.mem_finRange j
    rw [e, List.pairwise_append, List.pairwise_cons] at hp
    rcases List.mem_append.1 hm with h1 | h1
    · simpa using hn j h1
    · rcases List.mem_cons.1 h1 with rfl | h2
      · exact absurd hj (lt_irrefl _)
      · exact absurd hj (not_lt.2 (hp.2.1.1 j h2).le)
  · rintro ⟨hk, hl⟩
    cases hf : s.firstKey with
    | none => simp [State.firstKey_eq_none.1 hf] at hk
    | some k' =>
      have hk' : s.key k' = true := by simpa using List.find?_some hf
      obtain ⟨_, as, bs, e, hn⟩ := List.find?_eq_some_iff_append.1 hf
      have hp : (List.finRange 16).Pairwise (· < ·) := List.pairwise_lt_finRange 16
      have hm : k ∈ as ++ k' :: bs := e ▸ List.mem_finRange k
      rw [e, List.pairwise_append, List.pairwise_cons] at hp
      rcases List.mem_append.1 hm with h1 | h1
      · have := hn k h1
        simp [hk] at this
      · rcases List.mem_cons.1 h1 with h2 | h2
        · rw [h2]
        · have := hl k' (hp.2.1.1 k h2)
          simp [this] at hk'

/-- Everything a suspended step can do. -/
theorem State.keyWaitCheck_cases (s : State) :
    ((∀ k, s.key k = false) ∧ s.keyWaitCheck = s) ∨
    (∃ k, s.key k = true ∧ (∀ j < k, s.key j = false) ∧
      s.keyWaitCheck = { s with v := s.v.set s.waitReg (BitVec.ofNat 8 k.val), waiting := false }) := by
  unfold State.keyWaitCheck
  cases h : s.firstKey with
  | none => exact .inl ⟨State.firstKey_eq_none.1 h, rfl⟩
  | some k => exact .inr ⟨k, (State.firstKey_eq_some.1 h).1, (State.firstKey_eq_some.1 h).2, rfl⟩

/-! ### Block load -/

/-- A block load of `n` registers: the first `n` read the bytes from `I` upwards, the others are as before. -/
theorem State.loadRegs_eq (s : State) (n : Nat) : s.loadRegs n = { s with v := (s.loadRegs n).v } := by
  induction n with
  | zero => rfl
  | succ n ih => simp only [State.loadRegs]; rw [ih]; rfl

theorem State.reg_loadRegs (s : State) {n : Nat} (h : n ≤ 16) (r : Reg) :
    (s.loadRegs n).reg r = if r.val < n then s.memRead (s.indexed r.val) else s.reg r := by
  induction n with
  | zero => simp [State.loadRegs]
  | succ n ih =>
    simp only [State.loadRegs, State.reg_setReg, ih (by omega)]
    have e : (Fin.ofNat 16 n).val = n := Nat.mod_eq_of_lt (by omega)
    by_cases hr : r = Fin.ofNat 16 n
    · rw [if_pos hr, hr, e, if_pos (Nat.lt_succ_self n)]
    · have : r.val ≠ n := fun hv => hr (Fin.ext (by rw [e]; exact hv))
      rw [if_neg hr]
      split_ifs <;> first | rfl | omega

/-! ### Frame buffer -/

/-- A flip changes the pixel it names and no other. -/
theorem FrameBuffer.pixel_flip (fb : FrameBuffer) (a px : Col) (b py : Row) :
    FrameBuffer.pixel (FrameBuffer.flip fb a b) px py = (FrameBuffer.pixel fb px py ^^ (decide (px = a) && decide (py = b))) := by
  simp only [FrameBuffer.pixel, FrameBuffer.flip, Fin.getElem_fin, Vector.getElem_set]
  by_cases h : py = b
  · subst h
    have h64 : px.val < 64 := px.isLt
    by_cases h2 : px = a
    · subst h2; simp [h64]
    · have : ¬ px.val = a.val := fun e => h2 (Fin.ext e)
      simp [h2, this]
  · have : ¬ b.val = py.val := fun e => h (Fin.ext e.symm)
    simp [h, this]

/-- Two frame buffers with the same pixels are the same. -/
theorem FrameBuffer.ext_pixel {fb gb : FrameBuffer} (h : ∀ px py, FrameBuffer.pixel fb px py = FrameBuffer.pixel gb px py) : fb = gb := by
  apply Vector.ext
  intro y hy
  apply BitVec.eq_of_getLsbD_eq
  intro x hx
  exact h ⟨x, hx⟩ ⟨y, hy⟩

@[simp] theorem FrameBuffer.pixel_clear (px : Col) (py : Row) : FrameBuffer.pixel FrameBuffer.clear px py = false := by
  simp [FrameBuffer.pixel, FrameBuffer.clear]

end Sys2Proof.Machine
end

