-- ==== Sys2Proof/Laws/Draw.lean ====
section
/-! SUPPORT. What drawing a sprite can do (spec/43_draw.md R182, R183 (e)): the pixels under a sprite bit of 1 are
flipped, every other pixel is untouched, and a collision is a flipped pixel that was 1 before the draw. -/

namespace Sys2Proof.Machine

theorem pixel_drawBit (bit : Bool) (a px : Col) (b py : Row) (d : Drawing) :
    (drawBit bit a b d).1.pixel px py = (d.1.pixel px py ^^ (bit && decide (px = a) && decide (py = b))) := by
  cases bit <;> simp [drawBit, FrameBuffer.pixel_flip]

theorem collision_drawBit (bit : Bool) (a : Col) (b : Row) (d : Drawing) :
    (drawBit bit a b d).2 = (d.2 || (bit && d.1.pixel a b)) := by
  cases bit <;> simp [drawBit]

theorem spriteCol_inj {vx : Byte} {c d : Nat} (hc : c < 64) (hd : d < 64) (h : spriteCol vx c = spriteCol vx d) : c = d := by
  have := congrArg Fin.val h
  simp only [spriteCol, show params.fbWidth = 64 from rfl] at this
  omega

theorem spriteRow_inj {vy : Byte} {r q : Nat} (hr : r < 32) (hq : q < 32) (h : spriteRow vy r = spriteRow vy q) : r = q := by
  have := congrArg Fin.val h
  simp only [spriteRow, show params.fbHeight = 32 from rfl] at this
  omega

/-- The pixels of one row after its first `n` columns. -/
theorem pixel_drawCols (b vx : Byte) (q : Row) (n : Nat) (hn : n ≤ 8) (d : Drawing) (px : Col) (py : Row) :
    (drawCols b vx q n d).1.pixel px py =
      (d.1.pixel px py ^^ decide (py = q ∧ ∃ c, c < n ∧ px = spriteCol vx c ∧ spriteBit b c = true)) := by
  induction n with
  | zero => simp [drawCols]
  | succ n ih =>
    rw [drawCols, pixel_drawBit, ih (by omega), Bool.xor_assoc]
    congr 1
    by_cases hq : py = q
    · by_cases hp : px = spriteCol vx n
      · have hlow : ¬ ∃ c, c < n ∧ px = spriteCol vx c ∧ spriteBit b c = true := by
          rintro ⟨c, hc, e, _⟩
          have := spriteCol_inj (by omega) (by omega) (e.symm.trans hp)
          omega
        have hall : (∃ c, c < n + 1 ∧ px = spriteCol vx c ∧ spriteBit b c = true) ↔ spriteBit b n = true := by
          constructor
          · rintro ⟨c, hc, e, h⟩
            have := spriteCol_inj (by omega) (by omega) (e.symm.trans hp)
            rwa [this] at h
          · exact fun h => ⟨n, by omega, hp, h⟩
        have e1 : decide (py = q ∧ ∃ c, c < n ∧ px = spriteCol vx c ∧ spriteBit b c = true) = false :=
          decide_eq_false fun h => hlow h.2
        have e2 : decide (py = q ∧ ∃ c, c < n + 1 ∧ px = spriteCol vx c ∧ spriteBit b c = true) = spriteBit b n := by
          rw [Bool.eq_iff_iff, decide_eq_true_iff, hall]; exact ⟨fun h => h.2, fun h => ⟨hq, h⟩⟩
        rw [e1, e2]; simp [hq, hp]
      · have hiff : (∃ c, c < n + 1 ∧ px = spriteCol vx c ∧ spriteBit b c = true) ↔
            ∃ c, c < n ∧ px = spriteCol vx c ∧ spriteBit b c = true := by
          constructor
          · rintro ⟨c, hc, e, h⟩
            exact ⟨c, by rcases Nat.lt_succ_iff_lt_or_eq.1 hc with h1 | h1; exacts [h1, absurd (h1 ▸ e) hp], e, h⟩
          · rintro ⟨c, hc, e, h⟩; exact ⟨c, by omega, e, h⟩
        have e : decide (py = q ∧ ∃ c, c < n + 1 ∧ px = spriteCol vx c ∧ spriteBit b c = true) =
            decide (py = q ∧ ∃ c, c < n ∧ px = spriteCol vx c ∧ spriteBit b c = true) :=
          decide_eq_decide.2 (and_congr_right fun _ => hiff)
        rw [e]; simp [hp]
    · simp [hq]

/-- The collision of one row after its first `n` columns. -/
theorem collision_drawCols (b vx : Byte) (q : Row) (n : Nat) (hn : n ≤ 8) (d : Drawing) :
    (drawCols b vx q n d).2 =
      (d.2 || decide (∃ c, c < n ∧ spriteBit b c = true ∧ d.1.pixel (spriteCol vx c) q = true)) := by
  induction n with
  | zero => simp [drawCols]
  | succ n ih =>
    rw [drawCols, collision_drawBit, ih (by omega), pixel_drawCols _ _ _ _ (by omega), Bool.or_assoc]
    congr 1
    have hlow : ¬ ∃ c, c < n ∧ spriteCol vx n = spriteCol vx c ∧ spriteBit b c = true := by
      rintro ⟨c, hc, e, _⟩
      have := spriteCol_inj (by omega) (by omega) e
      omega
    rw [Bool.eq_iff_iff]
    simp only [Bool.or_eq_true, Bool.and_eq_true, decide_eq_true_iff, hlow, and_false, decide_false, Bool.xor_false]
    constructor
    · rintro (⟨c, hc, h⟩ | h)
      · exact ⟨c, by omega, h⟩
      · exact ⟨n, by omega, h⟩
    · rintro ⟨c, hc, h⟩
      rcases Nat.lt_succ_iff_lt_or_eq.1 hc with h1 | h1
      · exact .inl ⟨c, h1, h⟩
      · exact .inr (h1 ▸ h)

/-- Sprite row `r` of the sprite at I, drawn at column start `vx`, has a 1 bit at column `px`. -/
def rowCovers (s : State) (vx : Byte) (r : Nat) (px : Col) : Prop :=
  ∃ c, c < 8 ∧ px = spriteCol vx c ∧ spriteBit (s.memRead (s.indexed r)) c = true

/-- The pixels after the first `n` rows. -/
theorem pixel_drawRows (s : State) (vx vy : Byte) (n : Nat) (hn : n ≤ 32) (d : Drawing) (px : Col) (py : Row) :
    (drawRows s vx vy n d).1.pixel px py = true ↔
      ¬ (d.1.pixel px py = true ↔ ∃ r, r < n ∧ py = spriteRow vy r ∧ rowCovers s vx r px) := by
  induction n with
  | zero => simp [drawRows]
  | succ n ih =>
    have ih := ih (by omega)
    rw [drawRows, pixel_drawCols _ _ _ _ (Nat.le_refl 8)]
    have hx : ∀ a : Bool, ∀ P : Prop, [Decidable P] → ((a ^^ decide P) = true ↔ ¬ (a = true ↔ P)) := by
      intro a P _; by_cases hP : P <;> cases a <;> simp [hP]
    rw [hx, ih]
    by_cases hy : py = spriteRow vy n
    · have hlow : ¬ ∃ r, r < n ∧ py = spriteRow vy r ∧ rowCovers s vx r px := by
        rintro ⟨r, hr, e, _⟩
        have := spriteRow_inj (by omega) (by omega) (e.symm.trans hy)
        omega
      have hall : (∃ r, r < n + 1 ∧ py = spriteRow vy r ∧ rowCovers s vx r px) ↔ rowCovers s vx n px := by
        constructor
        · rintro ⟨r, hr, e, h⟩
          have := spriteRow_inj (by omega) (by omega) (e.symm.trans hy)
          rwa [this] at h
        · exact fun h => ⟨n, by omega, hy, h⟩
      have hrow : (py = spriteRow vy n ∧ ∃ c, c < 8 ∧ px = spriteCol vx c ∧
          spriteBit (s.memRead (s.indexed n)) c = true) ↔ rowCovers s vx n px := ⟨And.right, fun h => ⟨hy, h⟩⟩
      rw [hall, hrow, iff_false_intro hlow, iff_false, not_not]
    · have hiff : (∃ r, r < n + 1 ∧ py = spriteRow vy r ∧ rowCovers s vx r px) ↔
          ∃ r, r < n ∧ py = spriteRow vy r ∧ rowCovers s vx r px := by
        constructor
        · rintro ⟨r, hr, e, h⟩
          exact ⟨r, by rcases Nat.lt_succ_iff_lt_or_eq.1 hr with h1 | h1; exacts [h1, absurd (h1 ▸ e) hy], e, h⟩
        · rintro ⟨r, hr, e, h⟩; exact ⟨r, by omega, e, h⟩
      have hrow : ¬ (py = spriteRow vy n ∧ ∃ c, c < 8 ∧ px = spriteCol vx c ∧
          spriteBit (s.memRead (s.indexed n)) c = true) := fun h => hy h.1
      rw [hiff, iff_false_intro hrow, iff_false, not_not]

/-- The collision after the first `n` rows of a draw that starts from `d`. -/
theorem collision_drawRows (s : State) (vx vy : Byte) (n : Nat) (hn : n ≤ 32) (d : Drawing) :
    (drawRows s vx vy n d).2 = true ↔
      d.2 = true ∨ ∃ r, r < n ∧ ∃ px, rowCovers s vx r px ∧ d.1.pixel px (spriteRow vy r) = true := by
  induction n with
  | zero => simp [drawRows]
  | succ n ih =>
    have ih := ih (by omega)
    rw [drawRows, collision_drawCols _ _ _ _ (Nat.le_refl 8), Bool.or_eq_true, decide_eq_true_iff, ih]
    have hp : ∀ px, (drawRows s vx vy n d).1.pixel px (spriteRow vy n) = d.1.pixel px (spriteRow vy n) := by
      intro px
      rw [Bool.eq_iff_iff, pixel_drawRows s vx vy n (by omega)]
      have hlow : ¬ ∃ r, r < n ∧ spriteRow vy n = spriteRow vy r ∧ rowCovers s vx r px := by
        rintro ⟨r, hr, e, _⟩
        have := spriteRow_inj (by omega) (by omega) e
        omega
      simp only [hlow, iff_false, not_not]
    simp only [hp]
    constructor
    · rintro ((h | ⟨r, hr, h⟩) | ⟨c, hc, h1, h2⟩)
      · exact .inl h
      · exact .inr ⟨r, by omega, h⟩
      · exact .inr ⟨n, by omega, spriteCol vx c, ⟨c, hc, rfl, h1⟩, h2⟩
    · rintro (h | ⟨r, hr, px, hc, h⟩)
      · exact .inl (.inl h)
      · rcases Nat.lt_succ_iff_lt_or_eq.1 hr with h1 | h1
        · exact .inl (.inr ⟨r, h1, px, hc, h⟩)
        · subst h1
          obtain ⟨c, hc, rfl, hb⟩ := hc
          exact .inr ⟨c, hc, hb, h⟩

end Sys2Proof.Machine
end

