-- ==== Sys2Proof/Laws/Exec.lean ====
section
/-! SUPPORT. Which path a step and a meaning take, for the step and for the four instructions that have more than one
(spec/40_dispatcher.md R126, R128). -/

namespace Sys2Proof.Machine

/-! ### The step -/

theorem step_of_running {s : State} (hf : s.fault = none) (hw : s.waiting = false) :
    step s = s.fetchDecodeExecute := by
  simp only [step, hf, hw, Option.isSome_none, Bool.false_eq_true, if_false]

theorem step_of_waiting {s : State} (hf : s.fault = none) (hw : s.waiting = true) :
    step s = .next s.keyWaitCheck := by
  simp only [step, hf, hw, Option.isSome_none, Bool.false_eq_true, if_false, if_true]

/-! ### The instructions that can raise a fault -/

theorem exec_call_of_lt {s : State} (h : s.sp.val < 16) (nnn : Addr) :
    exec (.call nnn) s = .next (State.setPc
      { s with stack := s.stack.set s.sp.val s.nextPc, sp := ⟨s.sp.val + 1, by omega⟩ } (addrLiteral nnn)) := by
  simp only [exec, execCall, State.push_of_lt h]

theorem exec_call_of_full {s : State} (h : s.sp.val = 16) (nnn : Addr) :
    exec (.call nnn) s = raise .stackOverflow s := by
  simp only [exec, execCall, State.push_of_full h]

theorem exec_ret_of_pos {s : State} (h : 0 < s.sp.val) :
    exec .ret s = .next (State.setPc
      { s with sp := ⟨s.sp.val - 1, by omega⟩ } (s.stack[s.sp.val - 1]'(by omega))) := by
  simp only [exec, execRet, State.pop_of_pos h]

theorem exec_ret_of_empty {s : State} (h : s.sp.val = 0) : exec .ret s = raise .stackUnderflow s := by
  simp only [exec, execRet, State.pop_of_empty h]

theorem exec_skipIfKeyPressed_of_le {s : State} {x : Reg} (h : (s.reg x).toNat ≤ 15) :
    exec (.skipIfKeyPressed x) s = .next (s.skipIf (s.key ⟨(s.reg x).toNat, by omega⟩)) := by
  simp only [exec, execSkipIfKeyPressed, keySkip, keyIndex_of_le h]

theorem exec_skipIfKeyPressed_of_gt {s : State} {x : Reg} (h : 15 < (s.reg x).toNat) :
    exec (.skipIfKeyPressed x) s = raise .keyIndexRange s := by
  simp only [exec, execSkipIfKeyPressed, keySkip, keyIndex_of_gt h]

theorem exec_skipIfKeyNotPressed_of_le {s : State} {x : Reg} (h : (s.reg x).toNat ≤ 15) :
    exec (.skipIfKeyNotPressed x) s = .next (s.skipIf (!s.key ⟨(s.reg x).toNat, by omega⟩)) := by
  simp only [exec, execSkipIfKeyNotPressed, keySkip, keyIndex_of_le h]

theorem exec_skipIfKeyNotPressed_of_gt {s : State} {x : Reg} (h : 15 < (s.reg x).toNat) :
    exec (.skipIfKeyNotPressed x) s = raise .keyIndexRange s := by
  simp only [exec, execSkipIfKeyNotPressed, keySkip, keyIndex_of_gt h]

end Sys2Proof.Machine
end

