-- ==== Sys2Proof/Laws/PerInstr.lean ====
section
/-! SUPPORT. Statements about every instruction as syntax, one lemma per constructor (LAWS.json).
`EncodeFamily`: the family nibble of the encoded word is the first digit of the instruction's pattern (spec/30_encoding.md
R91, R97). -/

namespace Sys2Proof.Laws

/-- The first digit of an instruction's pattern (R97). -/
def EncodeFamily.digit : Instr → BitVec 4
  | .clearScreen | .ret | .sys _ => 0x0
  | .jump _ => 0x1
  | .call _ => 0x2
  | .skipIfEqualByte _ _ => 0x3
  | .skipIfNotEqualByte _ _ => 0x4
  | .skipIfEqualRegisters _ _ => 0x5
  | .loadLiteral _ _ => 0x6
  | .addLiteral _ _ => 0x7
  | .registerCopy _ _ | .or _ _ | .and _ _ | .xor _ _ | .addWithCarry _ _ | .subtract _ _ | .shiftRight _ _
  | .reverseSubtract _ _ | .shiftLeft _ _ => 0x8
  | .skipIfNotEqualRegisters _ _ => 0x9
  | .loadIndex _ => 0xA
  | .jumpOffRegister _ => 0xB
  | .random _ _ => 0xC
  | .draw _ _ _ => 0xD
  | .skipIfKeyPressed _ | .skipIfKeyNotPressed _ => 0xE
  | .loadFromDelayTimer _ | .waitForKey _ | .setDelayTimer _ | .setSoundTimer _ | .addIndex _ | .loadSpriteAddress _
  | .storeBcd _ | .storeRegistersToMemory _ | .loadRegistersFromMemory _ => 0xF

def EncodeFamily.Statement (i : Instr) : Prop := familyOf (encode i) = EncodeFamily.digit i

theorem EncodeFamily.clearScreen : Statement .clearScreen := rfl
theorem EncodeFamily.ret : Statement .ret := rfl
theorem EncodeFamily.sys (nnn : Addr) : Statement (.sys nnn) := familyOf_formatA (by decide) _
theorem EncodeFamily.jump (nnn : Addr) : Statement (.jump nnn) := familyOf_formatA (by decide) _
theorem EncodeFamily.call (nnn : Addr) : Statement (.call nnn) := familyOf_formatA (by decide) _
theorem EncodeFamily.skipIfEqualByte (x : Reg) (kk : Byte) : Statement (.skipIfEqualByte x kk) := familyOf_formatRK (by decide) _ _
theorem EncodeFamily.skipIfNotEqualByte (x : Reg) (kk : Byte) : Statement (.skipIfNotEqualByte x kk) := familyOf_formatRK (by decide) _ _
theorem EncodeFamily.skipIfEqualRegisters (x y : Reg) : Statement (.skipIfEqualRegisters x y) := familyOf_formatRRN (by decide) _ _ _
theorem EncodeFamily.loadLiteral (x : Reg) (kk : Byte) : Statement (.loadLiteral x kk) := familyOf_formatRK (by decide) _ _
theorem EncodeFamily.addLiteral (x : Reg) (kk : Byte) : Statement (.addLiteral x kk) := familyOf_formatRK (by decide) _ _
theorem EncodeFamily.registerCopy (x y : Reg) : Statement (.registerCopy x y) := familyOf_formatRRN (by decide) _ _ _
theorem EncodeFamily.or (x y : Reg) : Statement (.or x y) := familyOf_formatRRN (by decide) _ _ _
theorem EncodeFamily.and (x y : Reg) : Statement (.and x y) := familyOf_formatRRN (by decide) _ _ _
theorem EncodeFamily.xor (x y : Reg) : Statement (.xor x y) := familyOf_formatRRN (by decide) _ _ _
theorem EncodeFamily.addWithCarry (x y : Reg) : Statement (.addWithCarry x y) := familyOf_formatRRN (by decide) _ _ _
theorem EncodeFamily.subtract (x y : Reg) : Statement (.subtract x y) := familyOf_formatRRN (by decide) _ _ _
theorem EncodeFamily.shiftRight (x y : Reg) : Statement (.shiftRight x y) := familyOf_formatRRN (by decide) _ _ _
theorem EncodeFamily.reverseSubtract (x y : Reg) : Statement (.reverseSubtract x y) := familyOf_formatRRN (by decide) _ _ _
theorem EncodeFamily.shiftLeft (x y : Reg) : Statement (.shiftLeft x y) := familyOf_formatRRN (by decide) _ _ _
theorem EncodeFamily.skipIfNotEqualRegisters (x y : Reg) : Statement (.skipIfNotEqualRegisters x y) := familyOf_formatRRN (by decide) _ _ _
theorem EncodeFamily.loadIndex (nnn : Addr) : Statement (.loadIndex nnn) := familyOf_formatA (by decide) _
theorem EncodeFamily.jumpOffRegister (nnn : Addr) : Statement (.jumpOffRegister nnn) := familyOf_formatA (by decide) _
theorem EncodeFamily.random (x : Reg) (kk : Byte) : Statement (.random x kk) := familyOf_formatRK (by decide) _ _
theorem EncodeFamily.draw (x y : Reg) (n : Height) : Statement (.draw x y n) := familyOf_formatRRN (by decide) _ _ _
theorem EncodeFamily.skipIfKeyPressed (x : Reg) : Statement (.skipIfKeyPressed x) := familyOf_formatRK (by decide) _ _
theorem EncodeFamily.skipIfKeyNotPressed (x : Reg) : Statement (.skipIfKeyNotPressed x) := familyOf_formatRK (by decide) _ _
theorem EncodeFamily.loadFromDelayTimer (x : Reg) : Statement (.loadFromDelayTimer x) := familyOf_formatRK (by decide) _ _
theorem EncodeFamily.waitForKey (x : Reg) : Statement (.waitForKey x) := familyOf_formatRK (by decide) _ _
theorem EncodeFamily.setDelayTimer (x : Reg) : Statement (.setDelayTimer x) := familyOf_formatRK (by decide) _ _
theorem EncodeFamily.setSoundTimer (x : Reg) : Statement (.setSoundTimer x) := familyOf_formatRK (by decide) _ _
theorem EncodeFamily.addIndex (x : Reg) : Statement (.addIndex x) := familyOf_formatRK (by decide) _ _
theorem EncodeFamily.loadSpriteAddress (x : Reg) : Statement (.loadSpriteAddress x) := familyOf_formatRK (by decide) _ _
theorem EncodeFamily.storeBcd (x : Reg) : Statement (.storeBcd x) := familyOf_formatRK (by decide) _ _
theorem EncodeFamily.storeRegistersToMemory (x : Reg) : Statement (.storeRegistersToMemory x) := familyOf_formatRK (by decide) _ _
theorem EncodeFamily.loadRegistersFromMemory (x : Reg) : Statement (.loadRegistersFromMemory x) := familyOf_formatRK (by decide) _ _

end Sys2Proof.Laws
end

