-- ==== Sys2Proof/Tests/Slice0.lean ====
section
/-! SUPPORT. Tests of the model's own work. Expected results are the worked examples and the vectors of the spec
(spec/30_encoding.md R106, spec/95_test_vectors.md; the id of a vector stands in the name or the comment), never an output
of the model. -/

namespace Sys2Proof.Tests

open Sys2Proof.Machine

/-! ## Helpers -/

/-- A running state after reset with the given 16-bit word at PC. -/
def atWord (w : Nat) : State := State.reset.withFetchWord 16 w

/-- A field of the state that a step answers. -/
def after {α : Type} (s : State) (f : State → α) : Option α :=
  match step s with
  | .next t => some (f t)
  | .fault _ => none
  | .refused _ => none

/-! ## WellFormed: the ill-formed terms are refused (R95) -/

theorem test_wellFormed_refuses_sys_0E0 : (Instr.sys 0x0E0).wellFormed = false := by decide
theorem test_wellFormed_refuses_sys_0EE : (Instr.sys 0x0EE).wellFormed = false := by decide
theorem test_wellFormed_accepts_sys_0E1 : (Instr.sys 0x0E1).wellFormed = true := by decide

/-! ## Decode: every constructor by a word written out from the spec's encoding (R106, section 2 of the vectors) -/

theorem test_decode_clear_screen : decode 0x00E0 = .ok .clearScreen := by decide
theorem test_decode_ret : decode 0x00EE = .ok .ret := by decide
theorem test_decode_sys : decode 0x0123 = .ok (.sys 0x123) := by decide
theorem test_decode_sys_near_ret : decode 0x00EF = .ok (.sys 0x0EF) := by decide
theorem test_decode_jump : decode 0x12A4 = .ok (.jump 0x2A4) := by decide
theorem test_decode_call : decode 0x2FFE = .ok (.call 0xFFE) := by decide
theorem test_decode_skip_if_equal_byte : decode 0x3A3C = .ok (.skipIfEqualByte 0xA 0x3C) := by decide
theorem test_decode_skip_if_not_equal_byte : decode 0x4F00 = .ok (.skipIfNotEqualByte 0xF 0x00) := by decide
theorem test_decode_skip_if_equal_registers : decode 0x51E0 = .ok (.skipIfEqualRegisters 1 0xE) := by decide
theorem test_decode_load_literal : decode 0x67FF = .ok (.loadLiteral 7 0xFF) := by decide
theorem test_decode_add_literal : decode 0x7001 = .ok (.addLiteral 0 1) := by decide
theorem test_decode_register_copy : decode 0x8AB0 = .ok (.registerCopy 0xA 0xB) := by decide
theorem test_decode_or : decode 0x8AB1 = .ok (.or 0xA 0xB) := by decide
theorem test_decode_and : decode 0x8AB2 = .ok (.and 0xA 0xB) := by decide
theorem test_decode_xor : decode 0x8AB3 = .ok (.xor 0xA 0xB) := by decide
theorem test_decode_add_with_carry : decode 0x83F4 = .ok (.addWithCarry 3 0xF) := by decide
theorem test_decode_subtract : decode 0x8AB5 = .ok (.subtract 0xA 0xB) := by decide
theorem test_decode_shift_right : decode 0x8AB6 = .ok (.shiftRight 0xA 0xB) := by decide
theorem test_decode_reverse_subtract : decode 0x8AB7 = .ok (.reverseSubtract 0xA 0xB) := by decide
theorem test_decode_shift_left : decode 0x8B0E = .ok (.shiftLeft 0xB 0) := by decide
theorem test_decode_skip_if_not_equal_registers : decode 0x9120 = .ok (.skipIfNotEqualRegisters 1 2) := by decide
theorem test_decode_load_index : decode 0xA300 = .ok (.loadIndex 0x300) := by decide
theorem test_decode_jump_off_register : decode 0xBFFF = .ok (.jumpOffRegister 0xFFF) := by decide
theorem test_decode_random : decode 0xC00F = .ok (.random 0 0x0F) := by decide
theorem test_decode_draw : decode 0xD125 = .ok (.draw 1 2 5) := by decide
theorem test_decode_draw_height_zero : decode 0xD000 = .ok (.draw 0 0 0) := by decide
theorem test_decode_skip_if_key_pressed : decode 0xEF9E = .ok (.skipIfKeyPressed 0xF) := by decide
theorem test_decode_skip_if_key_not_pressed : decode 0xE4A1 = .ok (.skipIfKeyNotPressed 4) := by decide
theorem test_decode_load_from_delay_timer : decode 0xF007 = .ok (.loadFromDelayTimer 0) := by decide
theorem test_decode_wait_for_key : decode 0xFF0A = .ok (.waitForKey 0xF) := by decide
theorem test_decode_set_delay_timer : decode 0xF015 = .ok (.setDelayTimer 0) := by decide
theorem test_decode_set_sound_timer : decode 0xF318 = .ok (.setSoundTimer 3) := by decide
theorem test_decode_add_index : decode 0xF21E = .ok (.addIndex 2) := by decide
theorem test_decode_load_sprite_address : decode 0xF029 = .ok (.loadSpriteAddress 0) := by decide
theorem test_decode_store_bcd : decode 0xF233 = .ok (.storeBcd 2) := by decide
theorem test_decode_store_registers : decode 0xF255 = .ok (.storeRegistersToMemory 2) := by decide
theorem test_decode_load_registers : decode 0xF265 = .ok (.loadRegistersFromMemory 2) := by decide

theorem test_decode_illegal_5121 : decode 0x5121 = .error .family5Selector := by decide
theorem test_decode_illegal_8128 : decode 0x8128 = .error .family8Selector := by decide
theorem test_decode_illegal_8ABF : decode 0x8ABF = .error .family8Selector := by decide
theorem test_decode_illegal_912F : decode 0x912F = .error .family9Selector := by decide
theorem test_decode_illegal_E19F : decode 0xE19F = .error .familyEFunction := by decide
theorem test_decode_illegal_F1FF : decode 0xF1FF = .error .familyFFunction := by decide
theorem test_decode_one_byte : decodeBytes [0x12] = .error .tooFewBytes := by decide
theorem test_decode_bytes_high_first : decodeBytes [0x12, 0x34, 0x56] = .ok (.jump 0x234, [0x56]) := by decide
theorem test_decodeTableWord_draw : decodeTableWord 16 0xD125 = some (.draw 1 2 5) := by decide
theorem test_decodeTableWord_illegal : decodeTableWord 16 0x5121 = none := by decide
theorem test_opcodeMap_has_35_rows : opcodeMap.length = 35 := by decide

/-! ## Control flow (section 3 of the vectors) -/

theorem test_T1_sys : after (atWord 0x0300) (·.pc) = some 0x300 := by decide
theorem test_T2_jump : after ({ State.reset with pc := 0x20A }.withFetchWord 16 0x1204) (·.pc) = some 0x204 := by decide
theorem test_T5_call_pushes_wrapped :
    after ({ State.reset with pc := 0xFFE, stack := State.reset.stack.set 0 0xFFFF }.withFetchWord 16 0x2300)
      (fun t => (t.stack[0], t.sp, t.pc)) = some (0x0000, 1, 0x300) := by decide
theorem test_T7_call_overflow :
    after ({ State.reset with sp := 16 }.withFetchWord 16 0x2400) (fun t => (faultCode t.fault, t.pc, t.sp)) =
      some (2, 0x200, 16) := by decide
theorem test_T8_ret :
    after ({ State.reset with pc := 0x214, sp := 1, stack := State.reset.stack.set 0 0x204 }.withFetchWord 16 0x00EE)
      (fun t => (t.sp, t.pc, t.stack[0])) = some (0, 0x204, 0x204) := by decide
theorem test_T9_ret_underflow : after (atWord 0x00EE) (fun t => (faultCode t.fault, t.pc)) = some (3, 0x200) := by decide
theorem test_T11_jump_off_register_masked :
    after ((atWord 0xBFFF).setReg 0 0xFF) (·.pc) = some 0x0FE := by decide
theorem test_T12_jump_off_register_uses_V0 :
    after ((atWord 0xB123).setReg 1 0x55) (·.pc) = some 0x123 := by decide
theorem test_S8_skip_if_equal_byte_taken : after ((atWord 0x332A).setReg 3 0x2A) (·.pc) = some 0x204 := by decide
theorem test_T20_skip_wraps :
    after ({ State.reset with pc := 0xFFE }.withFetchWord 16 0x3000) (·.pc) = some 0x002 := by decide
theorem test_T15_skip_if_not_equal_byte :
    after (({ State.reset with pc := 0x300 }.withFetchWord 16 0x4511).setReg 5 0x10) (·.pc) = some 0x304 := by decide
theorem test_T16_skip_if_not_equal_byte :
    after (({ State.reset with pc := 0x300 }.withFetchWord 16 0x4510).setReg 5 0x10) (·.pc) = some 0x302 := by decide
theorem test_S8_skip_if_equal_registers :
    after (((atWord 0x5120).setReg 1 7).setReg 2 7) (·.pc) = some 0x204 := by decide
theorem test_T19_skip_if_not_equal_registers :
    after (((atWord 0x9120).setReg 1 7).setReg 2 8) (·.pc) = some 0x204 := by decide
theorem test_T18_skip_if_not_equal_registers_same : after ((atWord 0x9330).setReg 3 9) (·.pc) = some 0x202 := by decide
theorem test_T23_fetch_wraps :
    after ({ State.reset with pc := 0xFFF }.withFetchWord 16 0x1234) (·.pc) = some 0x234 := by decide

/-! ## ALU (section 4) -/

theorem test_A2_load_literal_VF : after ((atWord 0x6FAB).setReg 15 1) (·.reg 15) = some 0xAB := by decide
theorem test_A4_add_literal_no_flag :
    after ((atWord 0x7001).setReg 0 0xFF) (fun t => (t.reg 0, t.reg 15, t.pc)) = some (0x00, 0, 0x202) := by decide
theorem test_A6_register_copy : after ((atWord 0x8120).setReg 2 0x7F) (·.reg 1) = some 0x7F := by decide
theorem test_A7_or_keeps_VF :
    after ((((atWord 0x8121).setReg 1 0xF0).setReg 2 0x0F).setReg 15 1) (fun t => (t.reg 1, t.reg 15)) =
      some (0xFF, 1) := by decide
theorem test_A8_and : after (((atWord 0x8122).setReg 1 0xF3).setReg 2 0x3C) (·.reg 1) = some 0x30 := by decide
theorem test_A9_xor : after (((atWord 0x8123).setReg 1 0xFF).setReg 2 0x0F) (·.reg 1) = some 0xF0 := by decide
theorem test_A13_add_with_carry_256 :
    after (((atWord 0x8124).setReg 1 0xFF).setReg 2 0x01) (fun t => (t.reg 1, t.reg 15)) = some (0x00, 1) := by decide
theorem test_A15_add_with_carry_into_VF :
    after (((atWord 0x8F14).setReg 15 0xF0).setReg 1 0x20) (fun t => (t.reg 15, t.reg 1)) = some (0x01, 0x20) := by decide
theorem test_A18_subtract_borrows :
    after (((atWord 0x8125).setReg 1 0x01).setReg 2 0xFF) (fun t => (t.reg 1, t.reg 15)) = some (0x02, 0) := by decide
theorem test_A19_subtract_equal :
    after (((atWord 0x8125).setReg 1 0x44).setReg 2 0x44) (fun t => (t.reg 1, t.reg 15)) = some (0x00, 1) := by decide
theorem test_A22_reverse_subtract :
    after (((atWord 0x8127).setReg 1 0x05).setReg 2 0x03) (fun t => (t.reg 1, t.reg 15)) = some (0xFE, 0) := by decide
theorem test_A24_reverse_subtract_into_VF :
    after (((atWord 0x8F27).setReg 15 0x09).setReg 2 0x04) (·.reg 15) = some 0x00 := by decide
theorem test_A25_shift_right : after ((atWord 0x8106).setReg 1 0xAD) (fun t => (t.reg 1, t.reg 15)) = some (0x56, 1) := by decide
theorem test_A26_shift_right_ignores_y :
    after (((atWord 0x8126).setReg 1 0x04).setReg 2 0xFF) (fun t => (t.reg 1, t.reg 15, t.reg 2)) =
      some (0x02, 0, 0xFF) := by decide
theorem test_A30_shift_left : after ((atWord 0x810E).setReg 1 0xAD) (fun t => (t.reg 1, t.reg 15)) = some (0x5A, 1) := by decide
theorem test_A33_shift_left_VF : after ((atWord 0x8F0E).setReg 15 0x81) (·.reg 15) = some 0x01 := by decide

/-- The register Vx after a `random` with the draw given. -/
def afterDraw (r : Byte) (x : Reg) (kk : Byte) (s : State) : Option Byte :=
  match randomWith r x kk s with
  | .next t => some (t.reg x)
  | .fault _ => none
  | .refused _ => none

theorem test_A34_random : afterDraw 0xA7 0 0x0F State.reset = some 0x07 := by decide

/-! ## Frame buffer (section 5) -/

theorem test_F1_clear_screen :
    after ({ atWord 0x00E0 with fb := State.reset.fb.set 3 0xFF }.setReg 15 1) (fun t => (t.fb, t.reg 15)) =
      some (State.reset.fb, 1) := by decide
theorem test_F4_draw_wraps_columns :
    after (({ (atWord 0xD011).memWrite 0x300 0xFF with i := 0x300 }.setReg 0 60).setReg 1 31)
      (fun t => (t.fb[31], t.fb[0], t.reg 15)) = some (0xF00000000000000F, 0, 0) := by decide
theorem test_F6_draw_collision :
    after { (atWord 0xD011).memWrite 0x300 0xC0 with i := 0x300, fb := State.reset.fb.set 0 0x2 }
      (fun t => (t.fb[0], t.reg 15)) = some (0x1, 1) := by decide
theorem test_F8_draw_height_zero :
    after ((atWord 0xD010).setReg 15 9) (fun t => (t.fb, t.reg 15)) = some (State.reset.fb, 0) := by decide
theorem test_F9_draw_samples_VF :
    after ((atWord 0xDF11).setReg 15 3) (fun t => (t.fb[0], t.reg 15)) = some (0x78, 0) := by decide
theorem test_F11_draw_address_wraps :
    after { (atWord 0xD012).memWrite 0xFFF 0x80 with i := 0xFFF } (fun t => (t.fb[0], t.fb[1])) =
      some (0x1, 0xF) := by decide

/-! ## Input and timers (section 6) -/

theorem test_K1_skip_if_key_pressed :
    after (({ State.reset with pc := 0x206 }.withFetchWord 16 0xE09E |>.keySet 7 true).setReg 0 7) (·.pc) =
      some 0x20A := by decide
theorem test_K5_key_index_range :
    after ((atWord 0xE09E).setReg 0 0x10) (fun t => (faultCode t.fault, t.pc)) = some (4, 0x200) := by decide
theorem test_K4_skip_if_key_not_pressed :
    after (({ State.reset with pc := 0x206 }.withFetchWord 16 0xE4A1 |>.keySet 10 true).setReg 4 10) (·.pc) =
      some 0x208 := by decide
theorem test_K6_key_not_pressed_range :
    after ((atWord 0xE0A1).setReg 0 0xFF) (fun t => (faultCode t.fault, t.pc)) = some (4, 0x200) := by decide
theorem test_K8_wait_for_key :
    after (atWord 0xF30A) (fun t => (t.waiting, t.waitReg, t.pc)) = some (true, 3, 0x202) := by decide
theorem test_K10_key_scan_least :
    after (({ State.reset with waiting := true, waitReg := 3, pc := 0x202 }.keySet 9 true).keySet 2 true)
      (fun t => (t.reg 3, t.waiting, t.pc, t.waitReg)) = some (0x02, false, 0x202, 3) := by decide
theorem test_K12_load_from_delay_timer :
    after { atWord 0xF107 with dt := 6 } (fun t => (t.reg 1, t.dt)) = some (6, 6) := by decide
theorem test_K13_set_delay_timer : after ((atWord 0xF015).setReg 0 7) (·.dt) = some 7 := by decide
theorem test_K14_set_sound_timer : after ((atWord 0xF318).setReg 3 0x1E) (·.st) = some 0x1E := by decide
theorem test_K15_host_timer_tick :
    (fun t : State => (t.dt, t.st)) { State.reset with dt := 1 }.hostTimerTick = (0, 0) := by decide

/-! ## Index, BCD and block copies (section 7) -/

theorem test_M1_load_index : after (atWord 0xA300) (·.i) = some 0x300 := by decide
theorem test_M3_add_index_wraps :
    after ({ atWord 0xF01E with i := 0xFFF }.setReg 0 0xFF) (fun t => (t.i, t.reg 15)) = some (0x0FE, 0) := by decide
theorem test_M4_load_sprite_address : after ((atWord 0xF029).setReg 0 5) (·.i) = some 0x019 := by decide
theorem test_M6_load_sprite_address : after ((atWord 0xF029).setReg 0 0xFF) (·.i) = some 0x4FB := by decide
theorem test_M7_store_bcd :
    after ({ atWord 0xF233 with i := 0x300 }.setReg 2 0xFE)
      (fun t => (t.memRead 0x300, t.memRead 0x301, t.memRead 0x302)) = some (2, 5, 4) := by decide
theorem test_M10_store_bcd_wraps :
    after ({ atWord 0xF033 with i := 0xFFE }.setReg 0 123)
      (fun t => (t.memRead 0xFFE, t.memRead 0xFFF, t.memRead 0x000)) = some (1, 2, 3) := by decide
theorem test_M11_store_registers :
    after ({ atWord 0xF255 with i := 0x400, v := #v[1, 2, 3, 4, 0, 0, 0, 0, 0, 0, 0, 0, 0, 0, 0, 0] })
      (fun t => (t.memRead 0x400, t.memRead 0x402, t.memRead 0x403, t.i)) = some (1, 3, 0, 0x400) := by decide
theorem test_M14_load_registers :
    after ({ ((atWord 0xF265).memWriteBytes 0x300 [2, 5, 4]) with i := 0x300 }.setReg 3 0x99)
      (fun t => (t.reg 0, t.reg 1, t.reg 2, t.reg 3)) = some (2, 5, 4, 0x99) := by decide

/-! ## Dispatcher, faults, ports and reset (section 8) -/

theorem test_X1_step_after_reset : after State.reset (·.pc) = some 0x000 := by decide
theorem test_X2_glyph_bytes_are_illegal :
    after { State.reset with pc := 0 } (fun t => (faultCode t.fault, t.pc)) = some (1, 0x000) := by decide
theorem test_X7_skipped_word_not_decoded :
    after ((State.reset.memWriteBytes 0x200 [0x30, 0x00, 0x51, 0x21])) (fun t => (t.pc, t.fault)) =
      some (0x204, none) := by decide
theorem test_X12_fault_check_first :
    after ({ State.reset with waiting := true, fault := some .stackOverflow }.keySet 0 true)
      (fun t => (t.waiting, t.fault, t.reg 0)) = some (true, some .stackOverflow, 0) := by decide
theorem test_R36_glyph_F : (List.range 5).map (fun k => State.reset.memRead (0x04B + k)) = [0xF0, 0x80, 0xF0, 0x80, 0x80] := by
  decide

/-! ## Witnesses: a state and operands that meet the hypotheses of each statement that has some, together, and a boundary
value for each of its clauses. The name after `witness_` is the statement's. -/

/-- A suspended state with VF as the target and only the given keys down. -/
def suspended (down : List Key) : State :=
  down.foldl (fun s k => s.keySet k true) { State.reset with waiting := true, waitReg := 15 }

/-- A faulted state. -/
def faulted : State := { State.reset with fault := some .keyIndexRange, waiting := true }

theorem witness_DecodeOfEncodeIsTheInstruction :
    (Instr.sys 0xFFF).wellFormed = true ∧ (Instr.draw 15 15 15).wellFormed = true := by decide
theorem witness_EncodeOfDecodeIsTheWord : decode 0xFFFF = .error .familyFFunction ∧ decode 0xDFFF = .ok (.draw 15 15 15) := by
  decide
theorem witness_DecodeFollowsTheOpcodeMap :
    (∃ row ∈ opcodeMap, row.selects 0x00EF = true) ∧ ∃ row ∈ opcodeMap, row.selects 0x00EE = false := by decide
theorem witness_StepRunsTheDecodedInstruction :
    (atWord 0x6A05).fault = none ∧ (atWord 0x6A05).waiting = false ∧
      decode (atWord 0x6A05).fetch = .ok (.loadLiteral 0xA 0x05) := by decide
theorem witness_StepRunsThePlacedWord :
    State.reset.mem.wf = true ∧ decodeTableWord 16 0x1234 = some (.jump 0x234) := by decide
theorem witness_IllegalWordLatchesIllegalOpcode :
    (atWord 0x5121).fault = none ∧ (atWord 0x5121).waiting = false ∧
      decode (atWord 0x5121).fetch = .error .family5Selector := by decide
theorem witness_FaultedStepChangesNothing : faulted.fault ≠ none := by decide
theorem witness_SuspendedStepScansTheKeys_no_key :
    (suspended []).fault = none ∧ (suspended []).waiting = true ∧ ∀ k : Key, (suspended []).keys[k] = false := by decide
theorem witness_SuspendedStepScansTheKeys_first_key :
    (suspended [15, 0]).fault = none ∧ (suspended [15, 0]).waiting = true ∧ (suspended [15, 0]).keys[(0 : Key)] = true ∧
      ∀ j : Key, j < 0 → (suspended [15, 0]).keys[j] = false := by decide
theorem witness_SuspendedStepScansTheKeys_last_key :
    (suspended [15]).fault = none ∧ (suspended [15]).waiting = true ∧ (suspended [15]).keys[(15 : Key)] = true ∧
      ∀ j : Key, j < 15 → (suspended [15]).keys[j] = false := by decide
theorem witness_EachFaultIsRaisedExactlyOnItsCondition_call :
    { atWord 0x2300 with sp := 16 }.fault = none ∧ { atWord 0x2300 with sp := 16 }.waiting = false ∧
      decode { atWord 0x2300 with sp := 16 }.fetch = .ok (.call 0x300) := by decide
theorem witness_EachFaultIsRaisedExactlyOnItsCondition_ret :
    (atWord 0x00EE).sp.val = 0 ∧ decode (atWord 0x00EE).fetch = .ok .ret := by decide
theorem witness_EachFaultIsRaisedExactlyOnItsCondition_key :
    ((atWord 0xE19E).setReg 1 16).v[(1 : Reg)].toNat > 15 ∧
      decode ((atWord 0xE19E).setReg 1 16).fetch = .ok (.skipIfKeyPressed 1) := by decide
theorem witness_EachFaultIsRaisedExactlyOnItsCondition_none :
    ¬ ((atWord 0xE1A1).setReg 1 15).v[(1 : Reg)].toNat > 15 ∧
      decode ((atWord 0xE1A1).setReg 1 15).fetch = .ok (.skipIfKeyNotPressed 1) ∧
      ((atWord 0xE1A1).setReg 1 15).fault = none := by decide
theorem witness_StepNeverTouchesHostInputs :
    (∃ t, step ((atWord 0xF115).setReg 1 7) = .next t ∧ t.dt ≠ ((atWord 0xF115).setReg 1 7).dt) ∧
    (∃ t, step ((atWord 0xF118).setReg 1 7) = .next t ∧ t.st ≠ ((atWord 0xF118).setReg 1 7).st) ∧
    ∃ t, step faulted = .next t ∧ faulted.fault ≠ none := ⟨⟨_, rfl, by decide⟩, ⟨_, rfl, by decide⟩, ⟨_, rfl, by decide⟩⟩
theorem witness_ResetEstablishesTheResetValues :
    (∃ s : State, State.reset = s.resetPort) ∧ State.reset.memRead 79 = 0x80 ∧ State.reset.memRead 80 = 0x00 ∧
      State.reset.memRead 4095 = 0x00 := ⟨⟨State.reset, rfl⟩, by decide⟩
theorem witness_StepKeepsTheInvariants :
    (atWord 0x1FFF).Inv ∧ ∃ t, step (atWord 0x1FFF) = .next t :=
  ⟨⟨by decide, by decide, by decide, by decide, by decide⟩, _, rfl⟩
theorem witness_EveryInterleavingKeepsTheInvariants : (suspended [3]).Inv :=
  ⟨by decide, by decide, by decide, by decide, by decide⟩
theorem witness_OnlyResetLeavesTheFaultedCondition :
    faulted.fault ≠ none ∧ ∀ e ∈ [Event.step, .host (.keySet 15 true), .host .hostTimerTick, .step], e ≠ .host .reset := by
  decide
theorem witness_CanonicalMemoriesThatReadAlikeAreEqual :
    Memory.wf [(0x000, 0x00), (0xFFF, 0x01)] = true ∧ Memory.wf (Memory.set (Memory.set [] 0xFFF 0x01) 0x000 0x00) = true ∧
      Memory.set (Memory.set [] 0xFFF 0x01) 0x000 0x00 = [(0x000, 0x00), (0xFFF, 0x01)] := by decide
theorem witness_SysAndJumpSetPc : (0x0E1 : Addr) ≠ 0x0E0 ∧ (0x0E1 : Addr) ≠ 0x0EE := by decide
theorem witness_CallPushesTheReturnAddress :
    { State.reset with sp := 15 }.sp.val < 16 ∧ { State.reset with sp := 16 }.sp.val = 16 := by decide
theorem witness_RetReturnsToThePushedAddress :
    0 < { State.reset with sp := 1 }.sp.val ∧ 0 < { State.reset with sp := 16 }.sp.val ∧ State.reset.sp.val = 0 := by decide
theorem witness_CallThenRetRestoresPcAndSp : { State.reset with sp := 15 }.sp.val < 16 := by decide
theorem witness_RandomWritesAMaskedDraw : (0x0F : Byte) &&& ~~~0x0F = 0 ∧ (0x00 : Byte) &&& ~~~0x00 = 0 := by decide
theorem witness_OnlyNamedRegistersChange :
    (∃ t, exec (.addWithCarry 0 1) State.reset = .next t) ∧ mayWriteReg (.addWithCarry 0 1) 1 = false ∧
      (∃ t, exec (.loadRegistersFromMemory 14) State.reset = .next t) ∧
      mayWriteReg (.loadRegistersFromMemory 14) 15 = false := ⟨⟨_, rfl⟩, by decide, ⟨_, rfl⟩, by decide⟩
theorem witness_OnlyStoredBytesChange :
    State.reset.mem.wf = true ∧ (∃ t, exec (.storeRegistersToMemory 15) { State.reset with i := 0xFFF } = .next t) ∧
      ∀ k, k < storedBytes (.storeRegistersToMemory 15) → 0x00F % 4096 ≠ (0xFFF + k) % 4096 := ⟨rfl, ⟨_, rfl⟩, by decide⟩
theorem witness_SpecialCellsChangeOnlyByTheirInstructions :
    ∃ t, exec (.addIndex 0) (State.reset.setReg 0 1) = .next t ∧ t.i ≠ (State.reset.setReg 0 1).i := ⟨_, rfl, by decide⟩
theorem witness_DrawXorsTheSpriteAndReportsCollision_covered :
    { State.reset with fb := State.reset.fb.set 31 0x1 }.spriteCovers 0x40 0xFF 1 0 31 ∧
      { State.reset with fb := State.reset.fb.set 31 0x1 }.fb.pixel 0 31 = true :=
  ⟨⟨0, 0, by decide, by decide, by decide, by decide, by decide⟩, by decide⟩
theorem witness_DrawXorsTheSpriteAndReportsCollision_not_covered :
    ¬ State.reset.spriteCovers 0 0 0 0 0 ∧
      ¬ ∃ (px : Col) (py : Row), State.reset.spriteCovers 0 0 0 px py ∧ State.reset.fb.pixel px py = true :=
  ⟨fun ⟨_, _, h, _⟩ => absurd h (Nat.not_lt_zero _), fun ⟨_, _, ⟨_, _, h, _⟩, _⟩ => absurd h (Nat.not_lt_zero _)⟩
theorem witness_DrawingTwiceRestoresTheFrameBuffer : (14 : Reg) ≠ 15 ∧ (0 : Reg) ≠ 15 := by decide
theorem witness_KeySkipsTestTheNamedKey :
    (State.reset.setReg 15 15).v[(15 : Reg)].toNat < 16 ∧ (State.reset.setReg 15 16).v[(15 : Reg)].toNat > 15 := by decide
theorem witness_StoreBcdWritesThreeDigits :
    State.reset.mem.wf = true ∧ ∀ k, k < 3 → 0x002 % 4096 ≠ ({ State.reset with i := 0xFFF }.i.toNat + k) % 4096 := by
  decide
theorem witness_StoreRegistersWritesV0ToVx :
    State.reset.mem.wf = true ∧ (15 : Reg) ≤ 15 ∧
      ∀ r : Reg, r ≤ 15 → 0x010 % 4096 ≠ (State.reset.i.toNat + r.val) % 4096 := by decide
theorem witness_LoadRegistersReadsV0ToVx : (0 : Reg) ≤ 0 ∧ (0 : Reg) < 1 ∧ (15 : Reg) ≤ 15 := by decide
theorem witness_BlockLoadAndStoreRoundTrip : { State.reset with i := 0xFFF }.mem.wf = true := by decide
/-- An image whose byte at each offset is the offset modulo 256. -/
def countingImage : Image := Vector.ofFn fun a : Fin 4096 => BitVec.ofNat 8 a.val

theorem witness_LoadReplacesAllOfMemoryAndNothingElse_first :
    0 < 4096 ∧ (State.reset.load countingImage).memRead 0 = 0x00 ∧ State.reset.memRead 0 = 0xF0 := by
  refine ⟨by decide, ?_, by decide⟩
  have h := Memory.get_ofBytes countingImage.toList 0 (by rw [Vector.length_toList]) 0
  rw [List.getD_eq_getElem _ _ (by rw [Vector.length_toList]; decide), Vector.getElem_toList] at h
  rw [State.memRead, State.load_mem, maskAddr_eq, ← Nat.zero_add (0 % 4096), Nat.mod_eq_of_lt (by decide), h]
  rw [countingImage, Vector.getElem_ofFn]
  rfl
theorem witness_LoadReplacesAllOfMemoryAndNothingElse_last :
    4095 < 4096 ∧ (State.reset.load countingImage).memRead 4095 = 0xFF ∧ State.reset.memRead 4095 = 0x00 := by
  refine ⟨by decide, ?_, by decide⟩
  have h := Memory.get_ofBytes countingImage.toList 0 (by rw [Vector.length_toList]) 4095
  rw [List.getD_eq_getElem _ _ (by rw [Vector.length_toList]; decide), Vector.getElem_toList] at h
  rw [State.memRead, State.load_mem, maskAddr_eq, ← Nat.zero_add (4095 % 4096), Nat.mod_eq_of_lt (by decide), h]
  rw [countingImage, Vector.getElem_ofFn]
  rfl
theorem witness_JumpToSelfIsEndOfRun :
    (atWord 0x1200).fault = none ∧ (atWord 0x1200).waiting = false ∧ (atWord 0x1200).pc = (0x200 : Addr).setWidth 16 ∧
      decode (atWord 0x1200).fetch = .ok (.jump 0x200) := by decide

end Sys2Proof.Tests
end

/-! Reset (spec/10_state.md R40, spec/70_reset_and_hazards.md R262): what the cells hold afterwards. -/

namespace Sys2Proof.Machine

/-! ### The reset contents of memory -/

/-- R35: the glyph table lies at 0x000 to 0x04F. -/
theorem Memory.unlisted_of_lt {a : Nat} (h : a < 80) : Memory.unlisted a = params.glyphTable[a] := by
  rw [Memory.unlisted, List.getD_eq_getElem _ _ (by simpa using h), Vector.getElem_toList]

theorem Memory.unlisted_of_ge {a : Nat} (h : 80 ≤ a) : Memory.unlisted a = 0x00 :=
  List.getD_eq_default _ _ (by simpa using h)

/-- The model's memory lists no cell after reset; every address then reads its reset contents. -/
theorem State.memRead_of_mem_nil {s : State} (h : s.mem = []) {a : Nat} (ha : a < 4096) :
    s.memRead a = Memory.unlisted a := by
  rw [State.memRead, h, maskAddr_eq, Nat.mod_eq_of_lt ha, Memory.get]

/-! ### Construction and the reset port -/

/-- R261: the reset port and construction give the same cells; only the model's count of draws can differ. -/
theorem State.eq_reset_upto_drawCount {t : State} (h : t = State.reset ∨ ∃ s : State, t = s.resetPort) :
    ∃ n, t = { State.reset with drawCount := n } := by
  obtain rfl | ⟨s, rfl⟩ := h
  · exact ⟨0, rfl⟩
  · exact ⟨s.drawCount, rfl⟩

/-- The frame buffer after reset is the cleared one. -/
theorem State.reset_fb : State.reset.fb = FrameBuffer.clear := rfl

/-- Settles O15: both ways to reset give the reset record up to the count of draws, whose memory lists no cell, so that
it reads the glyph table below 80 and zero above; the remaining cells are read off the record. -/
theorem resetEstablishesTheResetValues : Obligations.ResetEstablishesTheResetValues := by
  unfold Obligations.ResetEstablishesTheResetValues
  intro t h
  obtain ⟨n, rfl⟩ := State.eq_reset_upto_drawCount h
  have glyphs (a : Nat) (ha : a < 80) :
      { State.reset with drawCount := n }.memRead a = params.glyphTable[a] := by
    rw [State.memRead_of_mem_nil rfl (by omega), Memory.unlisted_of_lt ha]
  have zeros (a : Nat) (lo : 80 ≤ a) (hi : a < 4096) :
      { State.reset with drawCount := n }.memRead a = 0x00 := by
    rw [State.memRead_of_mem_nil rfl hi, Memory.unlisted_of_ge lo]
  have registers (x : Reg) : State.reset.v[x] = 0x00 := Vector.getElem_replicate _
  have slots (k : Fin 16) : State.reset.stack[k] = 0x0000 := Vector.getElem_replicate _
  have keys (k : Key) : State.reset.keys[k] = false := Vector.getElem_replicate _
  have pixels (px : Col) (py : Row) : State.reset.fb.pixel px py = false := by
    rw [State.reset_fb, FrameBuffer.pixel_clear]
  exact ⟨glyphs, zeros, registers, rfl, rfl, slots, rfl, rfl, rfl, keys, pixels, rfl, rfl, rfl⟩

end Sys2Proof.Machine

/-! The dispatcher (spec/40_dispatcher.md R121, R122, R125): the faulted, the suspended and the illegal-word step. -/

namespace Sys2Proof.Machine

/-! ### The stages of a step -/

/-- R121: the check for a latched fault comes first, whatever the suspension flag holds. -/
theorem step_of_faulted {s : State} (h : s.fault ≠ none) : step s = .next s :=
  if_pos (Option.isSome_iff_ne_none.2 h)

theorem step_of_decoded {s : State} {i : Instr} (hf : s.fault = none) (hw : s.waiting = false)
    (h : decode s.fetch = .ok i) : step s = exec i s := by
  rw [step_of_running hf hw, State.fetchDecodeExecute, h]

theorem step_of_illegal {s : State} {e : Illegal} (hf : s.fault = none) (hw : s.waiting = false)
    (h : decode s.fetch = .error e) : step s = raise .illegalOpcode s := by
  rw [step_of_running hf hw, State.fetchDecodeExecute, h]

/-! ### The key check of a suspended step -/

theorem State.keyWaitCheck_of_no_key {s : State} (h : ∀ k, s.key k = false) : s.keyWaitCheck = s := by
  rw [State.keyWaitCheck, State.firstKey_eq_none.2 h]

theorem State.keyWaitCheck_of_least_key {s : State} {k : Key} (hk : s.key k = true) (hl : ∀ j < k, s.key j = false) :
    s.keyWaitCheck = { s with v := s.v.set s.waitReg (BitVec.ofNat 8 k.val), waiting := false } := by
  rw [State.keyWaitCheck, State.firstKey_eq_some.2 ⟨hk, hl⟩]
  rfl

/-! ### Runs of one event -/

/-- An event that leaves a state as it is does so any number of times in a row. -/
theorem runEvents_replicate_of_fixed {e : Event} {s : State} (h : e.run s = .next s) (n : Nat) :
    runEvents (List.replicate n e) s = .next s := by
  induction n with
  | zero => rfl
  | succ n ih => simp only [List.replicate_succ, runEvents, h, ih]

/-! ### Host actions and the fault latch -/

@[simp] theorem State.hostTimerTick_fault (s : State) : s.hostTimerTick.fault = s.fault := rfl

@[simp] theorem State.resetPort_fault (s : State) : s.resetPort.fault = none := rfl

/-- R236: of the host's actions only reset writes the fault latch. -/
theorem HostAction.apply_fault {a : HostAction} (h : a ≠ .reset) (s : State) : (a.apply s).fault = s.fault := by
  cases a with
  | load image => exact State.load_fault s image
  | keySet k b => exact State.keySet_fault s k b
  | dtSet w => exact State.dtSet_fault s w
  | stSet w => exact State.stSet_fault s w
  | hostTimerTick => exact State.hostTimerTick_fault s
  | reset => exact absurd rfl h

/-! ### The statements -/

/-- Settles O11: with no key down the key check fixes the state, so every number of steps does; with a least key down
the check leaves a running state, whose next step is the decoded instruction. -/
theorem suspendedStepScansTheKeys : Obligations.SuspendedStepScansTheKeys := by
  unfold Obligations.SuspendedStepScansTheKeys
  intro s hf hw
  have scan : step s = .next s.keyWaitCheck := step_of_waiting hf hw
  constructor
  · intro none_down n
    have fixed : Event.run .step s = .next s :=
      scan.trans (congrArg _ (State.keyWaitCheck_of_no_key none_down))
    exact runEvents_replicate_of_fixed fixed n
  · intro k hk hl
    refine ⟨_, scan.trans (congrArg _ (State.keyWaitCheck_of_least_key hk hl)), rfl, fun _ decoded => ?_⟩
    exact step_of_decoded hf rfl decoded

/-- Settles O9: a running step with an illegal word raises the cause, and raising latches it and nothing else. -/
theorem illegalWordLatchesIllegalOpcode : Obligations.IllegalWordLatchesIllegalOpcode := by
  unfold Obligations.IllegalWordLatchesIllegalOpcode
  intro s e hf hw he
  have raised : step s = raise .illegalOpcode s := step_of_illegal hf hw he
  exact ⟨raised, rfl⟩

/-- Settles O10: the fault check is the first of the step, and reset is the one host action that writes the latch. -/
theorem faultedStepChangesNothing : Obligations.FaultedStepChangesNothing := by
  unfold Obligations.FaultedStepChangesNothing
  intro s h
  exact ⟨step_of_faulted h, fun _ ha => HostAction.apply_fault ha s, State.resetPort_fault s⟩

end Sys2Proof.Machine

/-! The decoder on encoded control-flow instructions (spec/30_encoding.md R92 to R97), and the formats as the sums that
the statements write. -/

namespace Sys2Proof.Laws

/-! ### Formats as sums -/

theorem formatRK_eq (f : Nat) (x : Reg) (kk : Byte) :
    formatRK f x kk = BitVec.ofNat 16 (f * 0x1000 + 0x100 * x.val + kk.toNat) := by
  rw [formatRK, Nat.mul_comm x.val]

theorem formatRRN_eq (f : Nat) (x y n : Fin 16) :
    formatRRN f x y n = BitVec.ofNat 16 (f * 0x1000 + n.val + 0x100 * x.val + 0x10 * y.val) := by
  rw [formatRRN]
  congr 1
  omega

/-! ### Decoding an encoded instruction -/

/-- R95: an encoded `sys` is one of the two fixed words of family 0 only when its address is. -/
theorem decode_encode_sys {nnn : Addr} (hclear : nnn ≠ 0x0E0) (hret : nnn ≠ 0x0EE) :
    decode (encode (.sys nnn)) = .ok (.sys nnn) := by
  have ne_fixed {w : Word} (h : nnn ≠ fieldNNN w) : formatA 0x0 nnn ≠ w := by
    rintro rfl
    exact h (fieldNNN_formatA 0x0 nnn).symm
  rw [encode, decode, familyOf_formatA (by decide)]
  change decodeFamily0 _ = _
  rw [decodeFamily0, if_neg (ne_fixed (w := 0x00E0#16) hclear), if_neg (ne_fixed (w := 0x00EE#16) hret), fieldNNN_formatA]

theorem decode_encode_jump (nnn : Addr) : decode (encode (.jump nnn)) = .ok (.jump nnn) := by
  rw [encode, decode, familyOf_formatA (by decide), fieldNNN_formatA]
  rfl

theorem decode_encode_call (nnn : Addr) : decode (encode (.call nnn)) = .ok (.call nnn) := by
  rw [encode, decode, familyOf_formatA (by decide), fieldNNN_formatA]
  rfl

theorem decode_encode_ret : decode (encode .ret) = .ok .ret := rfl

theorem decode_encode_jumpOffRegister (nnn : Addr) :
    decode (encode (.jumpOffRegister nnn)) = .ok (.jumpOffRegister nnn) := by
  rw [encode, decode, familyOf_formatA (by decide), fieldNNN_formatA]
  rfl

theorem decode_encode_skipIfEqualByte (x : Reg) (kk : Byte) :
    decode (encode (.skipIfEqualByte x kk)) = .ok (.skipIfEqualByte x kk) := by
  rw [encode, decode, familyOf_formatRK (by decide), fieldX_formatRK, fieldKK_formatRK]
  rfl

theorem decode_encode_skipIfNotEqualByte (x : Reg) (kk : Byte) :
    decode (encode (.skipIfNotEqualByte x kk)) = .ok (.skipIfNotEqualByte x kk) := by
  rw [encode, decode, familyOf_formatRK (by decide), fieldX_formatRK, fieldKK_formatRK]
  rfl

/-- R94: in family 5 the selector nibble must be 0, and the encoder writes 0. -/
theorem decode_encode_skipIfEqualRegisters (x y : Reg) :
    decode (encode (.skipIfEqualRegisters x y)) = .ok (.skipIfEqualRegisters x y) := by
  rw [encode, decode, familyOf_formatRRN (by decide), fieldN_formatRRN, fieldX_formatRRN, fieldY_formatRRN]
  rfl

/-- R94: family 9 has the same selector as family 5. -/
theorem decode_encode_skipIfNotEqualRegisters (x y : Reg) :
    decode (encode (.skipIfNotEqualRegisters x y)) = .ok (.skipIfNotEqualRegisters x y) := by
  rw [encode, decode, familyOf_formatRRN (by decide), fieldN_formatRRN, fieldX_formatRRN, fieldY_formatRRN]
  rfl

end Sys2Proof.Laws

/-! Control flow (spec/41_control_flow.md R141 to R149). -/

namespace Sys2Proof.Machine

open Sys2Proof.Laws

/-! ### Writes of PC as record updates -/

/-- R140: a 12-bit address is not changed by the reduction of a PC write. -/
theorem State.setPc_addrLiteral (s : State) (nnn : Addr) :
    s.setPc (addrLiteral nnn) = { s with pc := nnn.setWidth 16 } := by
  rw [State.setPc, mask12_addrLiteral, addrLiteral]

theorem State.setPc_eq (s : State) (w : Word) :
    s.setPc w = { s with pc := BitVec.ofNat 16 (w.toNat % 4096) } := by
  rw [State.setPc, mask12_eq]

/-- R127: a skip adds 4 to PC when its condition holds and 2 otherwise, modulo 4096. -/
theorem State.skipIf_eq (s : State) (c : Bool) :
    s.skipIf c = { s with pc := BitVec.ofNat 16 ((s.pc.toNat + if c then 4 else 2) % 4096) } := by
  cases c with
  | true => exact congrArg (fun w => { s with pc := w }) s.skipPc_eq
  | false => exact congrArg (fun w => { s with pc := w }) s.nextPc_eq

theorem State.skipIf_beq (s : State) (a b : Byte) :
    s.skipIf (a == b) = { s with pc := BitVec.ofNat 16 ((s.pc.toNat + if a = b then 4 else 2) % 4096) } := by
  simp only [State.skipIf_eq, beq_iff_eq]

theorem State.skipIf_bne (s : State) (a b : Byte) :
    s.skipIf (a != b) = { s with pc := BitVec.ofNat 16 ((s.pc.toNat + if a = b then 2 else 4) % 4096) } := by
  simp only [State.skipIf_eq, bne_iff_ne, ne_eq, ite_not]

/-! ### The statements -/

/-- Settles O23: below 16 the push writes NEXT, which is PC + 2 reduced to 12 bits, and the target is stored as it is;
at 16 the cause is raised. -/
theorem callPushesTheReturnAddress : Obligations.CallPushesTheReturnAddress := by
  unfold Obligations.CallPushesTheReturnAddress
  intro nnn s
  refine ⟨decode_encode_call nnn, fun h => ?_, fun h => exec_call_of_full h nnn⟩
  rw [exec_call_of_lt h, State.setPc_addrLiteral, State.nextPc_eq]

/-- Settles O24: above 0 the pop answers the slot below SP, reduced to 12 bits by the PC write; at 0 the cause is
raised. -/
theorem retReturnsToThePushedAddress : Obligations.RetReturnsToThePushedAddress := by
  unfold Obligations.RetReturnsToThePushedAddress
  intro s
  refine ⟨decode_encode_ret, fun h => ?_, exec_ret_of_empty⟩
  rw [exec_ret_of_pos h, State.setPc_eq]

/-- Settles O27: the patterns are the encodings, and each meaning is one skip whose condition is the comparison. -/
theorem compareSkipsAdvanceByFourOrTwo : Obligations.CompareSkipsAdvanceByFourOrTwo := by
  unfold Obligations.CompareSkipsAdvanceByFourOrTwo
  intro x y kk s
  exact ⟨formatRK_eq 0x3 x kk ▸ decode_encode_skipIfEqualByte x kk,
    formatRK_eq 0x4 x kk ▸ decode_encode_skipIfNotEqualByte x kk,
    formatRRN_eq 0x5 x y 0x0 ▸ decode_encode_skipIfEqualRegisters x y,
    formatRRN_eq 0x9 x y 0x0 ▸ decode_encode_skipIfNotEqualRegisters x y,
    congrArg _ (s.skipIf_beq s.v[x] kk), congrArg _ (s.skipIf_bne s.v[x] kk),
    congrArg _ (s.skipIf_beq s.v[x] s.v[y]), congrArg _ (s.skipIf_bne s.v[x] s.v[y])⟩

/-- Settles O22: `sys` has one pattern with `jump` but for the family digit, and both store their address as it is. -/
theorem sysAndJumpSetPc : Obligations.SysAndJumpSetPc := by
  unfold Obligations.SysAndJumpSetPc
  intro nnn s
  have pattern : encode (.sys nnn) = BitVec.ofNat 16 nnn.toNat := by rw [encode, formatA, Nat.zero_mul, Nat.zero_add]
  exact ⟨fun hclear hret => pattern ▸ decode_encode_sys hclear hret, decode_encode_jump nnn,
    congrArg _ (s.setPc_addrLiteral nnn), congrArg _ (s.setPc_addrLiteral nnn)⟩

/-- Settles O26: the sum does not overflow 16 bits, so the PC write reduces the sum of the two numbers. -/
theorem jumpOffRegisterAddsV0 : Obligations.JumpOffRegisterAddsV0 := by
  unfold Obligations.JumpOffRegisterAddsV0
  intro nnn s
  refine ⟨decode_encode_jumpOffRegister nnn, ?_⟩
  rw [exec, execJumpOffRegister, State.setPc_eq, State.offRegister_toNat]
  rfl

end Sys2Proof.Machine

/-! The decoder on encoded ALU instructions (spec/30_encoding.md R94, R97): families 6 and 7, and family 8, whose
selector nibble names the operation. -/

namespace Sys2Proof.Laws

theorem decode_encode_loadLiteral (x : Reg) (kk : Byte) :
    decode (encode (.loadLiteral x kk)) = .ok (.loadLiteral x kk) := by
  rw [encode, decode, familyOf_formatRK (by decide), fieldX_formatRK, fieldKK_formatRK]
  rfl

theorem decode_encode_addLiteral (x : Reg) (kk : Byte) :
    decode (encode (.addLiteral x kk)) = .ok (.addLiteral x kk) := by
  rw [encode, decode, familyOf_formatRK (by decide), fieldX_formatRK, fieldKK_formatRK]
  rfl

/-- R94: the selector `n` alone decides which two-register instruction `mk` a word of family 8 is. -/
theorem decode_formatRRN_family8 {n : Fin 16} {mk : Reg → Reg → Instr}
    (selected : ∀ op, fieldN op = BitVec.ofFin n → decodeFamily8 op = .ok (mk (fieldX op) (fieldY op))) (x y : Reg) :
    decode (formatRRN 0x8 x y n) = .ok (mk x y) := by
  rw [decode, familyOf_formatRRN (by decide)]
  change decodeFamily8 _ = _
  rw [selected _ (fieldN_formatRRN 0x8 x y n), fieldX_formatRRN, fieldY_formatRRN]

theorem decode_encode_registerCopy (x y : Reg) : decode (encode (.registerCopy x y)) = .ok (.registerCopy x y) :=
  decode_formatRRN_family8 (fun op h => by rw [decodeFamily8, h]; rfl) x y

theorem decode_encode_or (x y : Reg) : decode (encode (.or x y)) = .ok (.or x y) :=
  decode_formatRRN_family8 (fun op h => by rw [decodeFamily8, h]; rfl) x y

theorem decode_encode_and (x y : Reg) : decode (encode (.and x y)) = .ok (.and x y) :=
  decode_formatRRN_family8 (fun op h => by rw [decodeFamily8, h]; rfl) x y

theorem decode_encode_xor (x y : Reg) : decode (encode (.xor x y)) = .ok (.xor x y) :=
  decode_formatRRN_family8 (fun op h => by rw [decodeFamily8, h]; rfl) x y

theorem decode_encode_addWithCarry (x y : Reg) : decode (encode (.addWithCarry x y)) = .ok (.addWithCarry x y) :=
  decode_formatRRN_family8 (fun op h => by rw [decodeFamily8, h]; rfl) x y

theorem decode_encode_subtract (x y : Reg) : decode (encode (.subtract x y)) = .ok (.subtract x y) :=
  decode_formatRRN_family8 (fun op h => by rw [decodeFamily8, h]; rfl) x y

theorem decode_encode_shiftRight (x y : Reg) : decode (encode (.shiftRight x y)) = .ok (.shiftRight x y) :=
  decode_formatRRN_family8 (fun op h => by rw [decodeFamily8, h]; rfl) x y

theorem decode_encode_reverseSubtract (x y : Reg) :
    decode (encode (.reverseSubtract x y)) = .ok (.reverseSubtract x y) :=
  decode_formatRRN_family8 (fun op h => by rw [decodeFamily8, h]; rfl) x y

theorem decode_encode_shiftLeft (x y : Reg) : decode (encode (.shiftLeft x y)) = .ok (.shiftLeft x y) :=
  decode_formatRRN_family8 (fun op h => by rw [decodeFamily8, h]; rfl) x y

end Sys2Proof.Laws

/-! The ALU (spec/42_alu.md R163 to R173). -/

namespace Sys2Proof.Machine

open Sys2Proof.Laws

/-! ### Byte results as numbers (R164, R169 to R173) -/

theorem byte_add_eq (a b : Byte) : a + b = BitVec.ofNat 8 ((a.toNat + b.toNat) % 256) := by
  apply BitVec.eq_of_toNat_eq
  rw [BitVec.toNat_add, BitVec.toNat_ofNat, Nat.mod_mod]

theorem byte_sub_eq (a b : Byte) : a - b = BitVec.ofNat 8 ((a.toNat + 256 - b.toNat) % 256) := by
  apply BitVec.eq_of_toNat_eq
  have := b.isLt
  rw [BitVec.toNat_sub, BitVec.toNat_ofNat]
  omega

theorem byte_shiftRight_one_eq (a : Byte) : a >>> 1 = BitVec.ofNat 8 (a.toNat / 2) := by
  apply BitVec.eq_of_toNat_eq
  have := a.isLt
  rw [BitVec.toNat_ushiftRight, BitVec.toNat_ofNat, Nat.shiftRight_eq_div_pow]
  omega

theorem byte_shiftLeft_one_eq (a : Byte) : a <<< 1 = BitVec.ofNat 8 (2 * a.toNat % 256) := by
  apply BitVec.eq_of_toNat_eq
  rw [BitVec.toNat_shiftLeft, BitVec.toNat_ofNat, Nat.shiftLeft_eq]
  omega

/-! ### The two shapes of an ALU instruction as record updates -/

theorem writeReg_eq (x : Reg) (w : Byte) (s : State) :
    writeReg x w s = .next { s with v := s.v.set x w, pc := BitVec.ofNat 16 ((s.pc.toNat + 2) % 4096) } := by
  rw [writeReg, State.advance, State.nextPc_eq]
  rfl

/-- R161: the flag is written last, so VF ends holding it when `x` is VF. -/
theorem writeRegAndFlag_eq (x : Reg) (w : Byte) (c : Bool) (s : State) :
    writeRegAndFlag x w c s = .next { s with
      v := (s.v.set x w).set 15 (flagByte c), pc := BitVec.ofNat 16 ((s.pc.toNat + 2) % 4096) } := by
  rw [writeRegAndFlag, State.advance, State.nextPc_eq]
  rfl

/-! ### The statements -/

/-- Settles O28: the patterns are the encodings, and each meaning is one register write; the sum of two bytes is the
sum of their numbers modulo 256. -/
theorem loadAddLiteralAndCopyWriteVx : Obligations.LoadAddLiteralAndCopyWriteVx := by
  unfold Obligations.LoadAddLiteralAndCopyWriteVx
  intro x y kk s
  refine ⟨formatRK_eq 0x6 x kk ▸ decode_encode_loadLiteral x kk, formatRK_eq 0x7 x kk ▸ decode_encode_addLiteral x kk,
    formatRRN_eq 0x8 x y 0x0 ▸ decode_encode_registerCopy x y, writeReg_eq x kk s, ?_, writeReg_eq x s.v[y] s⟩
  rw [exec, execAddLiteral, writeReg_eq, byte_add_eq]
  rfl

/-- Settles O29: the patterns are the encodings, and each meaning is one register write. -/
theorem bitwiseInstructionsWriteVx : Obligations.BitwiseInstructionsWriteVx := by
  unfold Obligations.BitwiseInstructionsWriteVx
  intro x y s
  exact ⟨formatRRN_eq 0x8 x y 0x1 ▸ decode_encode_or x y, formatRRN_eq 0x8 x y 0x2 ▸ decode_encode_and x y,
    formatRRN_eq 0x8 x y 0x3 ▸ decode_encode_xor x y, writeReg_eq x (s.v[x] ||| s.v[y]) s,
    writeReg_eq x (s.v[x] &&& s.v[y]) s, writeReg_eq x (s.v[x] ^^^ s.v[y]) s⟩

/-- Settles O30: the register write is the sum modulo 256, and the flag written after it is the ninth bit. -/
theorem addWithCarrySetsVfToTheCarry : Obligations.AddWithCarrySetsVfToTheCarry := by
  unfold Obligations.AddWithCarrySetsVfToTheCarry
  intro x y s
  refine ⟨formatRRN_eq 0x8 x y 0x4 ▸ decode_encode_addWithCarry x y, ?_⟩
  rw [exec, execAddWithCarry, writeRegAndFlag_eq, byte_add_eq, flagByte_carryOut]
  rfl

/-- Settles O31: both meanings are one difference with its flag, the operands in either order. -/
theorem subtractionsSetVfToNoBorrow : Obligations.SubtractionsSetVfToNoBorrow := by
  unfold Obligations.SubtractionsSetVfToNoBorrow
  intro x y s
  refine ⟨formatRRN_eq 0x8 x y 0x5 ▸ decode_encode_subtract x y,
    formatRRN_eq 0x8 x y 0x7 ▸ decode_encode_reverseSubtract x y, ?_, ?_⟩
  · rw [exec, execSubtract, writeRegAndFlag_eq, byte_sub_eq, flagByte_noBorrow]
    rfl
  · rw [exec, execReverseSubtract, writeRegAndFlag_eq, byte_sub_eq, flagByte_noBorrow]
    rfl

/-- Settles O32: the meanings name Vx only, so the field `y` has no effect; the flag is the bit of Vx before the
shift. -/
theorem shiftsSetVfToTheBitShiftedOut : Obligations.ShiftsSetVfToTheBitShiftedOut := by
  unfold Obligations.ShiftsSetVfToTheBitShiftedOut
  intro x y s
  refine ⟨formatRRN_eq 0x8 x y 0x6 ▸ decode_encode_shiftRight x y,
    formatRRN_eq 0x8 x y 0xE ▸ decode_encode_shiftLeft x y, ?_, ?_⟩
  · rw [exec, execShiftRight, writeRegAndFlag_eq, byte_shiftRight_one_eq, flagByte_shiftedOutRight]
    rfl
  · rw [exec, execShiftLeft, writeRegAndFlag_eq, byte_shiftLeft_one_eq, flagByte_shiftedOutLeft]
    rfl

end Sys2Proof.Machine

/-! The decoder on the encoded `clear_screen` (spec/30_encoding.md R94): its one fixed word. -/

namespace Sys2Proof.Laws

theorem decode_encode_clearScreen : decode (encode .clearScreen) = .ok .clearScreen := rfl

end Sys2Proof.Laws

/-! The frame buffer (spec/43_draw.md R181). -/

namespace Sys2Proof.Machine

open Sys2Proof.Laws

/-- R181: the meaning of `clear_screen` as one record update. -/
theorem exec_clearScreen_eq (s : State) :
    exec .clearScreen s =
      .next { s with fb := FrameBuffer.clear, pc := BitVec.ofNat 16 ((s.pc.toNat + 2) % 4096) } := by
  rw [exec, execClearScreen, State.advance, State.nextPc_eq]

/-- Settles O38: the next state holds the clear frame buffer, whose pixels are all 0, and writes PC besides. -/
theorem clearScreenZeroesEveryPixel : Obligations.ClearScreenZeroesEveryPixel := by
  unfold Obligations.ClearScreenZeroesEveryPixel
  intro s
  exact ⟨decode_encode_clearScreen, _, exec_clearScreen_eq s, FrameBuffer.pixel_clear, rfl⟩

end Sys2Proof.Machine

/-! The decoder on encoded input and timer instructions (spec/30_encoding.md R94, R97): families E and F, whose function
byte names the operation. -/

namespace Sys2Proof.Laws

/-- Format RF as the statements write it: the family and function byte are one literal, `x` is added to it. -/
theorem formatRF_eq (f : Nat) (x : Reg) (kk : Byte) :
    formatRK f x kk = BitVec.ofNat 16 (f * 0x1000 + kk.toNat + 0x100 * x.val) := by
  rw [formatRK_eq, Nat.add_right_comm]

/-- R94: the function byte `kk` alone decides which instruction `mk` a word of family E is. -/
theorem decode_formatRK_familyE {kk : Byte} {mk : Reg → Instr}
    (selected : ∀ op, fieldKK op = kk → decodeFamilyE op = .ok (mk (fieldX op))) (x : Reg) :
    decode (formatRK 0xE x kk) = .ok (mk x) := by
  rw [decode, familyOf_formatRK (by decide)]
  change decodeFamilyE _ = _
  rw [selected _ (fieldKK_formatRK 0xE x kk), fieldX_formatRK]

/-- R94: the function byte `kk` alone decides which instruction `mk` a word of family F is. -/
theorem decode_formatRK_familyF {kk : Byte} {mk : Reg → Instr}
    (selected : ∀ op, fieldKK op = kk → decodeFamilyF op = .ok (mk (fieldX op))) (x : Reg) :
    decode (formatRK 0xF x kk) = .ok (mk x) := by
  rw [decode, familyOf_formatRK (by decide)]
  change decodeFamilyF _ = _
  rw [selected _ (fieldKK_formatRK 0xF x kk), fieldX_formatRK]

theorem decode_encode_skipIfKeyPressed (x : Reg) :
    decode (encode (.skipIfKeyPressed x)) = .ok (.skipIfKeyPressed x) :=
  decode_formatRK_familyE (fun op h => by rw [decodeFamilyE, h]; rfl) x

theorem decode_encode_skipIfKeyNotPressed (x : Reg) :
    decode (encode (.skipIfKeyNotPressed x)) = .ok (.skipIfKeyNotPressed x) :=
  decode_formatRK_familyE (fun op h => by rw [decodeFamilyE, h]; rfl) x

theorem decode_encode_loadFromDelayTimer (x : Reg) :
    decode (encode (.loadFromDelayTimer x)) = .ok (.loadFromDelayTimer x) :=
  decode_formatRK_familyF (fun op h => by rw [decodeFamilyF, h]; rfl) x

theorem decode_encode_setDelayTimer (x : Reg) : decode (encode (.setDelayTimer x)) = .ok (.setDelayTimer x) :=
  decode_formatRK_familyF (fun op h => by rw [decodeFamilyF, h]; rfl) x

theorem decode_encode_setSoundTimer (x : Reg) : decode (encode (.setSoundTimer x)) = .ok (.setSoundTimer x) :=
  decode_formatRK_familyF (fun op h => by rw [decodeFamilyF, h]; rfl) x

end Sys2Proof.Laws

/-! Input and timers (spec/44_input_timers.md R191, R192, R194 to R196). -/

namespace Sys2Proof.Machine

open Sys2Proof.Laws

/-! ### Writes of PC as record updates -/

/-- R192: a skip on the opposite of `c` adds 2 to PC when `c` holds and 4 otherwise, modulo 4096. -/
theorem State.skipIf_not (s : State) (c : Bool) :
    s.skipIf (!c) = { s with pc := BitVec.ofNat 16 ((s.pc.toNat + if c then 2 else 4) % 4096) } := by
  cases c with
  | true => exact s.skipIf_eq false
  | false => exact s.skipIf_eq true

theorem State.advance_eq (s : State) :
    s.advance = { s with pc := BitVec.ofNat 16 ((s.pc.toNat + 2) % 4096) } := by
  rw [State.advance, State.nextPc_eq]

/-! ### The statements -/

/-- Settles O41: up to 15 the value of Vx is a key index, and each meaning is one skip on that key or on its opposite;
above 15 it is none, and the cause is raised. -/
theorem keySkipsTestTheNamedKey : Obligations.KeySkipsTestTheNamedKey := by
  unfold Obligations.KeySkipsTestTheNamedKey
  intro x s
  refine ⟨formatRF_eq 0xE x 0x9E ▸ decode_encode_skipIfKeyPressed x,
    formatRF_eq 0xE x 0xA1 ▸ decode_encode_skipIfKeyNotPressed x, fun h => ?_, fun h => ?_⟩
  · have le : (s.reg x).toNat ≤ 15 := Nat.le_of_lt_succ h
    exact ⟨(exec_skipIfKeyPressed_of_le le).trans (congrArg _ (s.skipIf_eq _)),
      (exec_skipIfKeyNotPressed_of_le le).trans (congrArg _ (s.skipIf_not _))⟩
  · exact ⟨exec_skipIfKeyPressed_of_gt h, exec_skipIfKeyNotPressed_of_gt h⟩

/-- Settles O43: the patterns are the encodings; the read of DT is one register write, and each of the two writes
replaces its timer and then advances PC. -/
theorem timerMovesCopyOneByte : Obligations.TimerMovesCopyOneByte := by
  unfold Obligations.TimerMovesCopyOneByte
  intro x s
  exact ⟨formatRF_eq 0xF x 0x07 ▸ decode_encode_loadFromDelayTimer x,
    formatRF_eq 0xF x 0x15 ▸ decode_encode_setDelayTimer x, formatRF_eq 0xF x 0x18 ▸ decode_encode_setSoundTimer x,
    writeReg_eq x s.dt s, congrArg _ (State.advance_eq { s with dt := s.v[x] }),
    congrArg _ (State.advance_eq { s with st := s.v[x] })⟩

end Sys2Proof.Machine

/-! The decoder on encoded index and block instructions (spec/30_encoding.md R94, R97): family F. -/

namespace Sys2Proof.Laws

theorem decode_encode_addIndex (x : Reg) : decode (encode (.addIndex x)) = .ok (.addIndex x) :=
  decode_formatRK_familyF (fun op h => by rw [decodeFamilyF, h]; rfl) x

theorem decode_encode_loadSpriteAddress (x : Reg) :
    decode (encode (.loadSpriteAddress x)) = .ok (.loadSpriteAddress x) :=
  decode_formatRK_familyF (fun op h => by rw [decodeFamilyF, h]; rfl) x

theorem decode_encode_storeBcd (x : Reg) : decode (encode (.storeBcd x)) = .ok (.storeBcd x) :=
  decode_formatRK_familyF (fun op h => by rw [decodeFamilyF, h]; rfl) x

theorem decode_encode_storeRegistersToMemory (x : Reg) :
    decode (encode (.storeRegistersToMemory x)) = .ok (.storeRegistersToMemory x) :=
  decode_formatRK_familyF (fun op h => by rw [decodeFamilyF, h]; rfl) x

end Sys2Proof.Laws

/-! The index register and the block stores (spec/45_memory_block.md R202 to R206). -/

namespace Sys2Proof.Machine

open Sys2Proof.Laws

/-! ### Reading memory after a store of bytes at ascending addresses (R66) -/

/-- R61, R66: the `k`-th stored byte lies `k` above the first address, modulo 4096. -/
theorem State.memRead_memWriteBytes_add {s : State} (w : s.mem.wf = true) (a : Nat) {bs : List Byte}
    (hl : bs.length ≤ 4096) {k : Nat} (hk : k < bs.length) : (s.memWriteBytes a bs).memRead (a + k) = bs[k] := by
  have distance : ((a + k) % 4096 + 4096 - a % 4096) % 4096 = k := by omega
  rw [State.memRead_after_memWriteBytes bs w a (a + k) hl, distance, List.getD_eq_getElem _ _ hk]

/-- An address that none of the bytes is stored to reads as before. -/
theorem State.memRead_memWriteBytes_of_ne {s : State} (w : s.mem.wf = true) (a : Nat) {bs : List Byte}
    (hl : bs.length ≤ 4096) {b : Nat} (h : ∀ k, k < bs.length → b % 4096 ≠ (a + k) % 4096) :
    (s.memWriteBytes a bs).memRead b = s.memRead b := by
  have beyond : bs.length ≤ (b % 4096 + 4096 - a % 4096) % 4096 := by
    by_contra hlt
    exact h _ (Nat.lt_of_not_le hlt) (by omega)
  rw [State.memRead_after_memWriteBytes bs w a b hl, List.getD_eq_default _ _ beyond]

/-! ### The two shapes of these instructions as record updates -/

theorem State.advance_setIndex_eq (s : State) (w : Word) :
    (s.setIndex w).advance =
      { s with i := BitVec.ofNat 16 (w.toNat % 4096), pc := BitVec.ofNat 16 ((s.pc.toNat + 2) % 4096) } := by
  rw [State.advance_eq, State.setIndex, mask12_eq]

theorem State.advance_memWriteBytes_eq (s : State) (a : Nat) (bs : List Byte) :
    (s.memWriteBytes a bs).advance =
      { s with mem := (s.memWriteBytes a bs).mem, pc := BitVec.ofNat 16 ((s.pc.toNat + 2) % 4096) } := by
  rw [State.advance_eq, State.memWriteBytes_eq]

theorem State.memRead_advance (s : State) (a : Nat) : s.advance.memRead a = s.memRead a :=
  State.memRead_congr s.advance_mem a

/-! ### The values written, as numbers -/

/-- R202: a carry out of 16 bits does not change the sum modulo 4096. -/
theorem State.indexSum_toNat_mod (s : State) (x : Reg) :
    (s.indexSum x).toNat % 4096 = (s.i.toNat + (s.reg x).toNat) % 4096 := by
  rw [State.indexSum, BitVec.toNat_add, zextByte_toNat]
  omega

/-- R203: five times a byte is a 12-bit number, so the write of I does not reduce it. -/
theorem State.glyphAddr_toNat_mod (s : State) (x : Reg) :
    (s.glyphAddr x).toNat % 4096 = (s.reg x).toNat * 5 := by
  have := (s.reg x).isLt
  rw [State.glyphAddr_toNat]
  omega

theorem length_bcdDigits (b : Byte) : (bcdDigits b).length = 3 := rfl

theorem State.length_regsUpTo (s : State) (x : Reg) : (s.regsUpTo x).length = x.val + 1 := by
  rw [State.regsUpTo, List.length_take, Vector.length_toList]
  omega

theorem State.getElem_regsUpTo (s : State) (x r : Reg) (h : r.val < (s.regsUpTo x).length) :
    (s.regsUpTo x)[r.val] = s.v[r] := by
  simp only [State.regsUpTo, List.getElem_take, Vector.getElem_toList, Fin.getElem_fin]

/-! ### The statements -/

/-- Settles O45: the patterns are the encodings, and each meaning is one write of I, reduced to 12 bits. -/
theorem indexArithmeticWritesI : Obligations.IndexArithmeticWritesI := by
  unfold Obligations.IndexArithmeticWritesI
  intro x s
  refine ⟨formatRF_eq 0xF x 0x1E ▸ decode_encode_addIndex x,
    formatRF_eq 0xF x 0x29 ▸ decode_encode_loadSpriteAddress x, ?_, ?_⟩
  · rw [exec, execAddIndex, State.advance_setIndex_eq, State.indexSum_toNat_mod]
    rfl
  · rw [exec, execLoadSpriteAddress, State.advance_setIndex_eq, State.glyphAddr_toNat_mod]
    rfl

/-- Settles O46: the meaning is one store of the three digits; each digit is read back at its place, and an address
that is none of the three is not written. -/
theorem storeBcdWritesThreeDigits : Obligations.StoreBcdWritesThreeDigits := by
  unfold Obligations.StoreBcdWritesThreeDigits
  intro x s
  refine ⟨formatRF_eq 0xF x 0x33 ▸ decode_encode_storeBcd x, _, rfl, State.advance_memWriteBytes_eq _ _ _,
    fun w => ?_⟩
  have length : (bcdDigits s.v[x]).length = 3 := length_bcdDigits _
  have stored {k : Nat} (hk : k < 3) :=
    (State.memRead_advance _ _).trans (State.memRead_memWriteBytes_add w s.i.toNat (by omega) (length ▸ hk))
  have kept (a : Nat) (h : ∀ k, k < 3 → a % 4096 ≠ (s.i.toNat + k) % 4096) :=
    (State.memRead_advance _ _).trans (State.memRead_memWriteBytes_of_ne w s.i.toNat (by omega) (length ▸ h))
  exact ⟨stored (k := 0) (by decide), stored (k := 1) (by decide), stored (k := 2) (by decide), kept⟩

/-- Settles O47: the meaning is one store of the registers V0 to Vx; register `r` is read back `r` above I, and an
address that holds none of them is not written. -/
theorem storeRegistersWritesV0ToVx : Obligations.StoreRegistersWritesV0ToVx := by
  unfold Obligations.StoreRegistersWritesV0ToVx
  intro x s
  refine ⟨formatRF_eq 0xF x 0x55 ▸ decode_encode_storeRegistersToMemory x, _, rfl,
    State.advance_memWriteBytes_eq _ _ _, fun w => ?_⟩
  have length : (s.regsUpTo x).length = x.val + 1 := s.length_regsUpTo x
  refine ⟨fun r hr => ?_, fun a h => ?_⟩
  · have hk : r.val < (s.regsUpTo x).length := length ▸ Nat.lt_succ_of_le hr
    rw [State.memRead_advance, ← s.getElem_regsUpTo x r hk]
    exact State.memRead_memWriteBytes_add w s.i.toNat (by omega) hk
  · rw [State.memRead_advance]
    refine State.memRead_memWriteBytes_of_ne w s.i.toNat (by omega) fun k hk => ?_
    have le : k ≤ x.val := by omega
    exact h ⟨k, by omega⟩ le

end Sys2Proof.Machine

/-! Faults (spec/60_exceptions.md R231, R232): which decoded words raise which cause in which state. -/

namespace Sys2Proof.Machine

/-! ### Updates that leave the fault latch -/

@[simp] theorem State.memWriteBytes_fault (s : State) (a : Nat) (bs : List Byte) :
    (s.memWriteBytes a bs).fault = s.fault := by
  rw [State.memWriteBytes_eq]

@[simp] theorem State.loadRegs_fault (s : State) (n : Nat) : (s.loadRegs n).fault = s.fault := by
  rw [State.loadRegs_eq]

/-! ### The table of causes -/

/-- R232: the causes and their conditions. `Raises s d c` says that in the state `s` a fetched word with the decoding
`d` raises the cause `c`; `step_of_raises` and `step_of_not_raises` tie it to the step. -/
inductive Raises (s : State) : Except Illegal Instr → FaultCause → Prop where
  | illegalWord (e : Illegal) : Raises s (.error e) .illegalOpcode
  | callWhenFull {nnn : Addr} (full : s.sp.val = 16) : Raises s (.ok (.call nnn)) .stackOverflow
  | retWhenEmpty (empty : s.sp.val = 0) : Raises s (.ok .ret) .stackUnderflow
  | keyPressed {x : Reg} (noKey : (s.reg x).toNat > 15) : Raises s (.ok (.skipIfKeyPressed x)) .keyIndexRange
  | keyNotPressed {x : Reg} (noKey : (s.reg x).toNat > 15) : Raises s (.ok (.skipIfKeyNotPressed x)) .keyIndexRange

section

variable {s : State} {d : Except Illegal Instr} {c : FaultCause}

/-- No word has two causes. -/
theorem Raises.unique {c' : FaultCause} (h : Raises s d c) (h' : Raises s d c') : c = c' := by
  cases h <;> cases h' <;> rfl

theorem raises_illegalOpcode_iff : Raises s d .illegalOpcode ↔ ∃ e, d = .error e := by
  constructor
  · intro h
    cases h with | illegalWord e => exact ⟨e, rfl⟩
  · rintro ⟨e, rfl⟩
    exact .illegalWord e

theorem raises_stackOverflow_iff :
    Raises s d .stackOverflow ↔ s.sp.val = 16 ∧ ∃ nnn, d = .ok (.call nnn) := by
  constructor
  · intro h
    cases h with | callWhenFull full => exact ⟨full, _, rfl⟩
  · rintro ⟨full, nnn, rfl⟩
    exact .callWhenFull full

theorem raises_stackUnderflow_iff : Raises s d .stackUnderflow ↔ s.sp.val = 0 ∧ d = .ok .ret := by
  constructor
  · intro h
    cases h with | retWhenEmpty empty => exact ⟨empty, rfl⟩
  · rintro ⟨empty, rfl⟩
    exact .retWhenEmpty empty

theorem raises_keyIndexRange_iff :
    Raises s d .keyIndexRange ↔ ∃ x : Reg, (s.reg x).toNat > 15 ∧
      (d = .ok (.skipIfKeyPressed x) ∨ d = .ok (.skipIfKeyNotPressed x)) := by
  constructor
  · intro h
    cases h with
    | keyPressed noKey => exact ⟨_, noKey, .inl rfl⟩
    | keyNotPressed noKey => exact ⟨_, noKey, .inr rfl⟩
  · rintro ⟨x, noKey, rfl | rfl⟩
    · exact .keyPressed noKey
    · exact .keyNotPressed noKey

/-! ### The step and the table -/

/-- The four instructions of the table take their second path when no cause applies; every other instruction has one
path, and none of its writes is to the latch. -/
theorem exec_fault_of_not_raises {i : Instr} (h : ∀ c, ¬ Raises s (.ok i) c) :
    ∃ t, exec i s = .next t ∧ t.fault = s.fault := by
  cases i with
  | call nnn =>
    have room : s.sp.val < 16 := Nat.lt_of_le_of_ne (Nat.le_of_lt_succ s.sp.isLt) fun full => h _ (.callWhenFull full)
    exact ⟨_, exec_call_of_lt room nnn, rfl⟩
  | ret =>
    have pushed : 0 < s.sp.val := Nat.pos_of_ne_zero fun empty => h _ (.retWhenEmpty empty)
    exact ⟨_, exec_ret_of_pos pushed, rfl⟩
  | skipIfKeyPressed x =>
    have key : (s.reg x).toNat ≤ 15 := Nat.le_of_not_lt fun noKey => h _ (.keyPressed noKey)
    exact ⟨_, exec_skipIfKeyPressed_of_le key, rfl⟩
  | skipIfKeyNotPressed x =>
    have key : (s.reg x).toNat ≤ 15 := Nat.le_of_not_lt fun noKey => h _ (.keyNotPressed noKey)
    exact ⟨_, exec_skipIfKeyNotPressed_of_le key, rfl⟩
  | storeRegistersToMemory x => exact ⟨_, rfl, State.memWriteBytes_fault ..⟩
  | loadRegistersFromMemory x => exact ⟨_, rfl, State.loadRegs_fault ..⟩
  | _ => exact ⟨_, rfl, rfl⟩

theorem step_of_raises (hf : s.fault = none) (hw : s.waiting = false) (h : Raises s (decode s.fetch) c) :
    step s = raise c s := by
  generalize hd : decode s.fetch = d at h
  cases h with
  | illegalWord e => exact step_of_illegal hf hw hd
  | callWhenFull full => exact (step_of_decoded hf hw hd).trans (exec_call_of_full full _)
  | retWhenEmpty empty => exact (step_of_decoded hf hw hd).trans (exec_ret_of_empty empty)
  | keyPressed noKey => exact (step_of_decoded hf hw hd).trans (exec_skipIfKeyPressed_of_gt noKey)
  | keyNotPressed noKey => exact (step_of_decoded hf hw hd).trans (exec_skipIfKeyNotPressed_of_gt noKey)

theorem step_of_not_raises (hf : s.fault = none) (hw : s.waiting = false)
    (h : ∀ c, ¬ Raises s (decode s.fetch) c) : ∃ t, step s = .next t ∧ t.fault = none := by
  cases hd : decode s.fetch with
  | error e => exact absurd (hd ▸ .illegalWord e) (h .illegalOpcode)
  | ok i =>
    obtain ⟨t, ht, kept⟩ := exec_fault_of_not_raises (hd ▸ h)
    exact ⟨t, (step_of_decoded hf hw hd).trans ht, kept.trans hf⟩

/-- R231: a running step latches the cause that the table gives for the fetched word, if there is one, and then changes
nothing else. -/
theorem step_latches_iff_raises (hf : s.fault = none) (hw : s.waiting = false) :
    ∃ t, step s = .next t ∧ (∀ c, t.fault = some c → t = { s with fault := some c }) ∧
      ∀ c, t.fault = some c ↔ Raises s (decode s.fetch) c := by
  by_cases h : ∃ c, Raises s (decode s.fetch) c
  · obtain ⟨c, hc⟩ := h
    refine ⟨_, step_of_raises hf hw hc, ?_, fun c' => ⟨?_, fun hc' => congrArg some (hc.unique hc')⟩⟩
    · rintro _ ⟨⟩
      rfl
    · rintro ⟨⟩
      exact hc
  · have none_raised := not_exists.1 h
    obtain ⟨t, ht, safe⟩ := step_of_not_raises hf hw none_raised
    have not_latched (c : FaultCause) : t.fault ≠ some c := by simp [safe]
    exact ⟨t, ht, fun c e => absurd e (not_latched c), fun c => iff_of_false (not_latched c) (none_raised c)⟩

end

/-! ### The codes of the latch -/

theorem faultCode_toNat_le (o : Option FaultCause) : (faultCode o).toNat ≤ 4 := by
  rcases o with _ | _ | _ | _ | _ <;> decide

/-! ### The statement -/

/-- Settles O13: the step latches exactly what the table of causes gives, and each row of the table is one of the
stated conditions. -/
theorem eachFaultIsRaisedExactlyOnItsCondition : Obligations.EachFaultIsRaisedExactlyOnItsCondition := by
  unfold Obligations.EachFaultIsRaisedExactlyOnItsCondition
  intro s hf hw
  obtain ⟨t, ht, frame, latched⟩ := step_latches_iff_raises hf hw
  exact ⟨t, ht, frame, (latched _).trans raises_illegalOpcode_iff, (latched _).trans raises_stackOverflow_iff,
    (latched _).trans raises_stackUnderflow_iff, (latched _).trans raises_keyIndexRange_iff, rfl, rfl, rfl, rfl, rfl,
    faultCode_toNat_le⟩

end Sys2Proof.Machine

/-! The decoder and the encoder are inverse to each other (spec/30_encoding.md R92 to R97): the instructions whose
encodings no earlier part decodes, the fields of a word as an encoding again, and both directions for every
instruction. -/

namespace Sys2Proof.Laws

/-! ### Decoding an encoded instruction -/

theorem decode_encode_loadIndex (nnn : Addr) : decode (encode (.loadIndex nnn)) = .ok (.loadIndex nnn) := by
  rw [encode, decode, familyOf_formatA (by decide), fieldNNN_formatA]
  rfl

theorem decode_encode_random (x : Reg) (kk : Byte) : decode (encode (.random x kk)) = .ok (.random x kk) := by
  rw [encode, decode, familyOf_formatRK (by decide), fieldX_formatRK, fieldKK_formatRK]
  rfl

theorem decode_encode_draw (x y : Reg) (n : Height) : decode (encode (.draw x y n)) = .ok (.draw x y n) := by
  rw [encode, decode, familyOf_formatRRN (by decide), fieldN_formatRRN, fieldX_formatRRN, fieldY_formatRRN]
  rfl

theorem decode_encode_waitForKey (x : Reg) : decode (encode (.waitForKey x)) = .ok (.waitForKey x) :=
  decode_formatRK_familyF (fun op h => by rw [decodeFamilyF, h]; rfl) x

theorem decode_encode_loadRegistersFromMemory (x : Reg) :
    decode (encode (.loadRegistersFromMemory x)) = .ok (.loadRegistersFromMemory x) :=
  decode_formatRK_familyF (fun op h => by rw [decodeFamilyF, h]; rfl) x

/-- R95: what well-formedness asks of a `sys`. -/
theorem wellFormed_sys_iff {nnn : Addr} : (Instr.sys nnn).wellFormed = true ↔ nnn ≠ 0x0E0 ∧ nnn ≠ 0x0EE := by
  simp [Instr.wellFormed, sysTargetExpressible]

theorem decode_encode {i : Instr} (h : i.wellFormed = true) : decode (encode i) = .ok i := by
  cases i with
  | clearScreen => exact decode_encode_clearScreen
  | ret => exact decode_encode_ret
  | sys nnn => exact decode_encode_sys (wellFormed_sys_iff.1 h).1 (wellFormed_sys_iff.1 h).2
  | jump nnn => exact decode_encode_jump nnn
  | call nnn => exact decode_encode_call nnn
  | skipIfEqualByte x kk => exact decode_encode_skipIfEqualByte x kk
  | skipIfNotEqualByte x kk => exact decode_encode_skipIfNotEqualByte x kk
  | skipIfEqualRegisters x y => exact decode_encode_skipIfEqualRegisters x y
  | loadLiteral x kk => exact decode_encode_loadLiteral x kk
  | addLiteral x kk => exact decode_encode_addLiteral x kk
  | registerCopy x y => exact decode_encode_registerCopy x y
  | or x y => exact decode_encode_or x y
  | and x y => exact decode_encode_and x y
  | xor x y => exact decode_encode_xor x y
  | addWithCarry x y => exact decode_encode_addWithCarry x y
  | subtract x y => exact decode_encode_subtract x y
  | shiftRight x y => exact decode_encode_shiftRight x y
  | reverseSubtract x y => exact decode_encode_reverseSubtract x y
  | shiftLeft x y => exact decode_encode_shiftLeft x y
  | skipIfNotEqualRegisters x y => exact decode_encode_skipIfNotEqualRegisters x y
  | loadIndex nnn => exact decode_encode_loadIndex nnn
  | jumpOffRegister nnn => exact decode_encode_jumpOffRegister nnn
  | random x kk => exact decode_encode_random x kk
  | draw x y n => exact decode_encode_draw x y n
  | skipIfKeyPressed x => exact decode_encode_skipIfKeyPressed x
  | skipIfKeyNotPressed x => exact decode_encode_skipIfKeyNotPressed x
  | loadFromDelayTimer x => exact decode_encode_loadFromDelayTimer x
  | waitForKey x => exact decode_encode_waitForKey x
  | setDelayTimer x => exact decode_encode_setDelayTimer x
  | setSoundTimer x => exact decode_encode_setSoundTimer x
  | addIndex x => exact decode_encode_addIndex x
  | loadSpriteAddress x => exact decode_encode_loadSpriteAddress x
  | storeBcd x => exact decode_encode_storeBcd x
  | storeRegistersToMemory x => exact decode_encode_storeRegistersToMemory x
  | loadRegistersFromMemory x => exact decode_encode_loadRegistersFromMemory x

/-- R94: no word stands for two instructions. -/
theorem encode_inj {i j : Instr} (hi : i.wellFormed = true) (hj : j.wellFormed = true) (h : encode i = encode j) :
    i = j :=
  Except.ok.inj ((decode_encode hi).symm.trans (h ▸ decode_encode hj))

/-- R64, R90: the two bytes of a word at the head of a byte list decode as the word, and the rest stays. -/
theorem decodeBytes_highByte_lowByte (op : Word) (rest : List Byte) :
    decodeBytes (highByte op :: lowByte op :: rest) = (decode op).map fun i => (i, rest) := by
  rw [decodeBytes, wordOfBytes_highByte_lowByte]

/-- Settles O1: every well-formed instruction decodes back from its word, and its two bytes are read as that word. -/
theorem decodeOfEncodeIsTheInstruction : Obligations.DecodeOfEncodeIsTheInstruction := by
  unfold Obligations.DecodeOfEncodeIsTheInstruction
  intro i rest h
  have word : decode (encode i) = .ok i := decode_encode h
  exact ⟨word, (decodeBytes_highByte_lowByte (encode i) rest).trans (by rw [word]; rfl)⟩

/-! ### The decoder, family by family (R94) -/

theorem nibble_cases (f : BitVec 4) :
    f = 0x0#4 ∨ f = 0x1#4 ∨ f = 0x2#4 ∨ f = 0x3#4 ∨ f = 0x4#4 ∨ f = 0x5#4 ∨ f = 0x6#4 ∨ f = 0x7#4 ∨
    f = 0x8#4 ∨ f = 0x9#4 ∨ f = 0xA#4 ∨ f = 0xB#4 ∨ f = 0xC#4 ∨ f = 0xD#4 ∨ f = 0xE#4 ∨ f = 0xF#4 := by
  revert f
  decide

section

variable {op : Word}

theorem decode_family0 (h : familyOf op = 0x0#4) : decode op = decodeFamily0 op := by
  rw [decode, h]
  rfl

theorem decode_family1 (h : familyOf op = 0x1#4) : decode op = .ok (.jump (fieldNNN op)) := by
  rw [decode, h]
  rfl

theorem decode_family2 (h : familyOf op = 0x2#4) : decode op = .ok (.call (fieldNNN op)) := by
  rw [decode, h]
  rfl

theorem decode_family3 (h : familyOf op = 0x3#4) : decode op = .ok (.skipIfEqualByte (fieldX op) (fieldKK op)) := by
  rw [decode, h]
  rfl

theorem decode_family4 (h : familyOf op = 0x4#4) :
    decode op = .ok (.skipIfNotEqualByte (fieldX op) (fieldKK op)) := by
  rw [decode, h]
  rfl

theorem decode_family5 (h : familyOf op = 0x5#4) : decode op =
      if fieldN op = 0#4 then .ok (.skipIfEqualRegisters (fieldX op) (fieldY op)) else .error .family5Selector := by
  rw [decode, h]
  rfl

theorem decode_family6 (h : familyOf op = 0x6#4) : decode op = .ok (.loadLiteral (fieldX op) (fieldKK op)) := by
  rw [decode, h]
  rfl

theorem decode_family7 (h : familyOf op = 0x7#4) : decode op = .ok (.addLiteral (fieldX op) (fieldKK op)) := by
  rw [decode, h]
  rfl

theorem decode_family8 (h : familyOf op = 0x8#4) : decode op = decodeFamily8 op := by
  rw [decode, h]
  rfl

theorem decode_family9 (h : familyOf op = 0x9#4) : decode op =
      if fieldN op = 0#4 then .ok (.skipIfNotEqualRegisters (fieldX op) (fieldY op)) else .error .family9Selector := by
  rw [decode, h]
  rfl

theorem decode_familyA (h : familyOf op = 0xA#4) : decode op = .ok (.loadIndex (fieldNNN op)) := by
  rw [decode, h]
  rfl

theorem decode_familyB (h : familyOf op = 0xB#4) : decode op = .ok (.jumpOffRegister (fieldNNN op)) := by
  rw [decode, h]
  rfl

theorem decode_familyC (h : familyOf op = 0xC#4) : decode op = .ok (.random (fieldX op) (fieldKK op)) := by
  rw [decode, h]
  rfl

theorem decode_familyD (h : familyOf op = 0xD#4) :
    decode op = .ok (.draw (fieldX op) (fieldY op) (fieldN op).toFin) := by
  rw [decode, h]
  rfl

theorem decode_familyE (h : familyOf op = 0xE#4) : decode op = decodeFamilyE op := by
  rw [decode, h]
  rfl

theorem decode_familyF (h : familyOf op = 0xF#4) : decode op = decodeFamilyF op := by
  rw [decode, h]
  rfl

end

/-! ### Encoding a decoded instruction -/

section

variable {op : Word} {f : Nat}

/-- R93: a word of family `f` is the format A word of its address field. -/
theorem formatA_fields (h : familyOf op = BitVec.ofNat 4 f) : formatA f (fieldNNN op) = op := by
  apply BitVec.eq_of_toNat_eq
  have family : (familyOf op).toNat = f % 16 := h ▸ BitVec.toNat_ofNat f 4
  have sum := toNat_eq_family_nnn op
  rw [formatA, BitVec.toNat_ofNat]
  omega

/-- R93: a word of family `f` is the format RK word of its fields `x` and `kk`. -/
theorem formatRK_fields (h : familyOf op = BitVec.ofNat 4 f) : formatRK f (fieldX op) (fieldKK op) = op := by
  apply BitVec.eq_of_toNat_eq
  have family : (familyOf op).toNat = f % 16 := h ▸ BitVec.toNat_ofNat f 4
  have sum := toNat_eq_family_x_kk op
  rw [formatRK, BitVec.toNat_ofNat]
  omega

/-- R93: format RF, where the byte `kk` is the function byte. -/
theorem formatRK_of_function {kk : Byte} (h : familyOf op = BitVec.ofNat 4 f) (hkk : fieldKK op = kk) :
    formatRK f (fieldX op) kk = op :=
  hkk ▸ formatRK_fields h

/-- R93: a word of family `f` whose nibble is `n` is the format RRN word of its fields `x`, `y` and `n`. -/
theorem formatRRN_of_selector {n : Fin 16} (h : familyOf op = BitVec.ofNat 4 f) (hn : fieldN op = BitVec.ofFin n) :
    formatRRN f (fieldX op) (fieldY op) n = op := by
  apply BitVec.eq_of_toNat_eq
  have family : (familyOf op).toNat = f % 16 := h ▸ BitVec.toNat_ofNat f 4
  have selector : (fieldN op).toNat = n.val := congrArg BitVec.toNat hn
  have sum := toNat_eq_family_x_y_n op
  rw [formatRRN, BitVec.toNat_ofNat]
  omega

theorem formatRRN_fields (h : familyOf op = BitVec.ofNat 4 f) :
    formatRRN f (fieldX op) (fieldY op) (fieldN op).toFin = op :=
  formatRRN_of_selector h rfl

end

theorem encode_of_decodeFamily0 {op : Word} {i : Instr} (hf : familyOf op = 0x0#4) (h : decodeFamily0 op = .ok i) :
    encode i = op ∧ i.wellFormed = true := by
  unfold decodeFamily0 at h
  split_ifs at h with hclear hret <;> cases h
  · exact ⟨hclear.symm, rfl⟩
  · exact ⟨hret.symm, rfl⟩
  · have word := formatA_fields hf
    refine ⟨word, wellFormed_sys_iff.2 ⟨fun e => hclear ?_, fun e => hret ?_⟩⟩
    · exact word.symm.trans (congrArg (formatA 0x0) e)
    · exact word.symm.trans (congrArg (formatA 0x0) e)

theorem encode_of_decodeFamily8 {op : Word} {i : Instr} (hf : familyOf op = 0x8#4) (h : decodeFamily8 op = .ok i) :
    encode i = op ∧ i.wellFormed = true := by
  unfold decodeFamily8 at h
  split at h <;> rename_i hn <;> cases h
  all_goals exact ⟨formatRRN_of_selector hf hn, rfl⟩

theorem encode_of_decodeFamilyE {op : Word} {i : Instr} (hf : familyOf op = 0xE#4) (h : decodeFamilyE op = .ok i) :
    encode i = op ∧ i.wellFormed = true := by
  unfold decodeFamilyE at h
  split at h <;> rename_i hkk <;> cases h
  all_goals exact ⟨formatRK_of_function hf hkk, rfl⟩

theorem encode_of_decodeFamilyF {op : Word} {i : Instr} (hf : familyOf op = 0xF#4) (h : decodeFamilyF op = .ok i) :
    encode i = op ∧ i.wellFormed = true := by
  unfold decodeFamilyF at h
  split at h <;> rename_i hkk <;> cases h
  all_goals exact ⟨formatRK_of_function hf hkk, rfl⟩

/-- R92, R94: the operands of the decoded instruction are the fields of the word, and its format puts them back. -/
theorem encode_of_decode {op : Word} {i : Instr} (h : decode op = .ok i) : encode i = op ∧ i.wellFormed = true := by
  obtain hf | hf | hf | hf | hf | hf | hf | hf | hf | hf | hf | hf | hf | hf | hf | hf := nibble_cases (familyOf op)
  · exact encode_of_decodeFamily0 hf (decode_family0 hf ▸ h)
  · cases (decode_family1 hf).symm.trans h; exact ⟨formatA_fields hf, rfl⟩
  · cases (decode_family2 hf).symm.trans h; exact ⟨formatA_fields hf, rfl⟩
  · cases (decode_family3 hf).symm.trans h; exact ⟨formatRK_fields hf, rfl⟩
  · cases (decode_family4 hf).symm.trans h; exact ⟨formatRK_fields hf, rfl⟩
  · rw [decode_family5 hf] at h
    split_ifs at h with hn
    cases h
    exact ⟨formatRRN_of_selector hf hn, rfl⟩
  · cases (decode_family6 hf).symm.trans h; exact ⟨formatRK_fields hf, rfl⟩
  · cases (decode_family7 hf).symm.trans h; exact ⟨formatRK_fields hf, rfl⟩
  · exact encode_of_decodeFamily8 hf (decode_family8 hf ▸ h)
  · rw [decode_family9 hf] at h
    split_ifs at h with hn
    cases h
    exact ⟨formatRRN_of_selector hf hn, rfl⟩
  · cases (decode_familyA hf).symm.trans h; exact ⟨formatA_fields hf, rfl⟩
  · cases (decode_familyB hf).symm.trans h; exact ⟨formatA_fields hf, rfl⟩
  · cases (decode_familyC hf).symm.trans h; exact ⟨formatRK_fields hf, rfl⟩
  · cases (decode_familyD hf).symm.trans h; exact ⟨formatRRN_fields hf, rfl⟩
  · exact encode_of_decodeFamilyE hf (decode_familyE hf ▸ h)
  · exact encode_of_decodeFamilyF hf (decode_familyF hf ▸ h)

/-- Settles O2: the decoder is inverted family by family. -/
theorem encodeOfDecodeIsTheWord : Obligations.EncodeOfDecodeIsTheWord := by
  unfold Obligations.EncodeOfDecodeIsTheWord
  exact fun _ _ => encode_of_decode

end Sys2Proof.Laws

/-! The table of illegal words and the opcode map (spec/30_encoding.md R97, R100). -/

namespace Sys2Proof.Laws

/-! ### The fields as numbers -/

theorem familyOf_toNat (op : Word) : (familyOf op).toNat = op.toNat / 4096 := by
  have := op.isLt
  rw [familyOf, BitVec.extractLsb'_toNat, Nat.shiftRight_eq_div_pow]
  omega

theorem fieldN_toNat (op : Word) : (fieldN op).toNat = op.toNat % 16 := by
  rw [fieldN, BitVec.extractLsb'_toNat, Nat.shiftRight_zero]

theorem fieldKK_toNat (op : Word) : (fieldKK op).toNat = op.toNat % 256 := by
  rw [fieldKK, BitVec.extractLsb'_toNat, Nat.shiftRight_zero]

/-! ### The illegal words (R100), selector by selector -/

theorem exists_decodeFamily0 (op : Word) : ∃ i, decodeFamily0 op = .ok i := by
  rw [decodeFamily0]
  split_ifs
  · exact ⟨_, rfl⟩
  · exact ⟨_, rfl⟩
  · exact ⟨_, rfl⟩

/-- Families 5 and 9 have one legal selector. -/
theorem selectorZero_error_iff {op : Word} {i : Instr} {e : Illegal} :
    (∃ e', (if fieldN op = 0#4 then .ok i else .error e : Except Illegal Instr) = .error e') ↔ op.toNat % 16 ≠ 0 := by
  have number : fieldN op = 0#4 ↔ op.toNat % 16 = 0 := by rw [← fieldN_toNat, ← BitVec.toNat_inj]; rfl
  split_ifs with h
  · exact iff_of_false (fun ⟨_, e⟩ => nomatch e) (not_not.2 (number.1 h))
  · exact iff_of_true ⟨e, rfl⟩ (mt number.2 h)

theorem decodeFamily8_error_iff {op : Word} :
    (∃ e, decodeFamily8 op = .error e) ↔ op.toNat % 16 ∈ [0x8, 0x9, 0xA, 0xB, 0xC, 0xD, 0xF] := by
  rw [← fieldN_toNat, decodeFamily8]
  obtain h | h | h | h | h | h | h | h | h | h | h | h | h | h | h | h := nibble_cases (fieldN op) <;> simp [h]

theorem decodeFamilyE_error_iff {op : Word} :
    (∃ e, decodeFamilyE op = .error e) ↔ op.toNat % 256 ∉ [0x9E, 0xA1] := by
  rw [← fieldKK_toNat, decodeFamilyE]
  split
  case h_3 => simp_all [← BitVec.toNat_inj]
  all_goals rename_i h; simp [h]

theorem decodeFamilyF_error_iff {op : Word} :
    (∃ e, decodeFamilyF op = .error e) ↔
      op.toNat % 256 ∉ [0x07, 0x0A, 0x15, 0x18, 0x1E, 0x29, 0x33, 0x55, 0x65] := by
  rw [← fieldKK_toNat, decodeFamilyF]
  split
  case h_10 => simp_all [← BitVec.toNat_inj]
  all_goals rename_i h; simp [h]

/-- Settles O3: a family without a selector has no illegal word, and each of the other five families has one row of the
table. -/
theorem illegalWordsAreExactlyTheTable : Obligations.IllegalWordsAreExactlyTheTable := by
  unfold Obligations.IllegalWordsAreExactlyTheTable
  intro op
  rw [← familyOf_toNat]
  obtain h | h | h | h | h | h | h | h | h | h | h | h | h | h | h | h := nibble_cases (familyOf op)
  · obtain ⟨i, hi⟩ := exists_decodeFamily0 op
    simp [decode_family0 h, h, hi]
  · simp [decode_family1 h, h]
  · simp [decode_family2 h, h]
  · simp [decode_family3 h, h]
  · simp [decode_family4 h, h]
  · simp [decode_family5 h, h, selectorZero_error_iff]
  · simp [decode_family6 h, h]
  · simp [decode_family7 h, h]
  · simp [decode_family8 h, h, decodeFamily8_error_iff]
  · simp [decode_family9 h, h, selectorZero_error_iff]
  · simp [decode_familyA h, h]
  · simp [decode_familyB h, h]
  · simp [decode_familyC h, h]
  · simp [decode_familyD h, h]
  · simp [decode_familyE h, h, decodeFamilyE_error_iff]
  · simp [decode_familyF h, h, decodeFamilyF_error_iff]

/-! ### The row of an instruction (R97) -/

/-- The bits of its word that name the instruction: all of them, the family, the family and the selector nibble, or the
family and the function byte. -/
def rowMask : Instr → Word
  | .clearScreen | .ret => 0xFFFF#16
  | .sys _ | .jump _ | .call _ | .loadIndex _ | .jumpOffRegister _ | .skipIfEqualByte _ _ | .skipIfNotEqualByte _ _
  | .loadLiteral _ _ | .addLiteral _ _ | .random _ _ | .draw _ _ _ => 0xF000#16
  | .skipIfEqualRegisters _ _ | .registerCopy _ _ | .or _ _ | .and _ _ | .xor _ _ | .addWithCarry _ _ | .subtract _ _
  | .shiftRight _ _ | .reverseSubtract _ _ | .shiftLeft _ _ | .skipIfNotEqualRegisters _ _ => 0xF00F#16
  | .skipIfKeyPressed _ | .skipIfKeyNotPressed _ | .loadFromDelayTimer _ | .waitForKey _ | .setDelayTimer _
  | .setSoundTimer _ | .addIndex _ | .loadSpriteAddress _ | .storeBcd _ | .storeRegistersToMemory _
  | .loadRegistersFromMemory _ => 0xF0FF#16

/-- R95: the words that the pattern of `sys` leaves to the two fixed words. -/
def rowExcept : Instr → List Word
  | .sys _ => [0x00E0, 0x00EE]
  | _ => []

/-- The row of an instruction, read off its encoding; `rowOf_mem_opcodeMap` says that the opcode map has it. -/
def rowOf (i : Instr) : OpcodeRow := ⟨i.mnemonic, encode i &&& rowMask i, rowMask i, rowExcept i⟩

/-! ### The fields of a masked word -/

section

variable {op m : Word}

theorem familyOf_and (h : familyOf m = 0xF#4) : familyOf (op &&& m) = familyOf op := by
  rw [familyOf, BitVec.extractLsb'_and, ← familyOf, ← familyOf, h]
  exact BitVec.and_allOnes

theorem fieldN_and (h : fieldN m = 0xF#4) : fieldN (op &&& m) = fieldN op := by
  rw [fieldN, BitVec.extractLsb'_and, ← fieldN, ← fieldN, h]
  exact BitVec.and_allOnes

theorem fieldKK_and (h : fieldKK m = 0xFF#8) : fieldKK (op &&& m) = fieldKK op := by
  rw [fieldKK, BitVec.extractLsb'_and, ← fieldKK, ← fieldKK, h]
  exact BitVec.and_allOnes

theorem fieldX_and (h : m.extractLsb' 8 4 = 0#4) : fieldX (op &&& m) = 0 := by
  rw [fieldX, BitVec.extractLsb'_and, h, BitVec.and_zero]
  rfl

theorem fieldY_and (h : m.extractLsb' 4 4 = 0#4) : fieldY (op &&& m) = 0 := by
  rw [fieldY, BitVec.extractLsb'_and, h, BitVec.and_zero]
  rfl

theorem fieldNNN_and (h : fieldNNN m = 0#12) : fieldNNN (op &&& m) = 0#12 := by
  rw [fieldNNN, BitVec.extractLsb'_and, ← fieldNNN, ← fieldNNN, h, BitVec.and_zero]

end

section

variable {op : Word} {f : Nat}

theorem and_F000 (h : familyOf op = BitVec.ofNat 4 f) : op &&& 0xF000#16 = formatA f 0#12 := by
  have family : familyOf (op &&& 0xF000#16) = BitVec.ofNat 4 f := (familyOf_and rfl).trans h
  rw [← formatA_fields family, fieldNNN_and rfl]

theorem and_F00F {n : Fin 16} (h : familyOf op = BitVec.ofNat 4 f) (hn : fieldN op = BitVec.ofFin n) :
    op &&& 0xF00F#16 = formatRRN f 0 0 n := by
  have family : familyOf (op &&& 0xF00F#16) = BitVec.ofNat 4 f := (familyOf_and rfl).trans h
  have selector : fieldN (op &&& 0xF00F#16) = BitVec.ofFin n := (fieldN_and rfl).trans hn
  rw [← formatRRN_of_selector family selector, fieldX_and rfl, fieldY_and rfl]

theorem and_F0FF {kk : Byte} (h : familyOf op = BitVec.ofNat 4 f) (hkk : fieldKK op = kk) :
    op &&& 0xF0FF#16 = formatRK f 0 kk := by
  have family : familyOf (op &&& 0xF0FF#16) = BitVec.ofNat 4 f := (familyOf_and rfl).trans h
  have function : fieldKK (op &&& 0xF0FF#16) = kk := (fieldKK_and rfl).trans hkk
  rw [← formatRK_of_function family function, fieldX_and rfl]

end

/-! ### The map has the row of every instruction, and selects its encoding -/

section

variable {f : Nat} (hf : f < 16)
include hf

theorem formatA_and_F000 (nnn : Addr) : formatA f nnn &&& 0xF000#16 = formatA f 0#12 :=
  and_F000 (familyOf_formatA hf nnn)

theorem formatRK_and_F000 (x : Reg) (kk : Byte) : formatRK f x kk &&& 0xF000#16 = formatA f 0#12 :=
  and_F000 (familyOf_formatRK hf x kk)

theorem formatRRN_and_F000 (x y n : Fin 16) : formatRRN f x y n &&& 0xF000#16 = formatA f 0#12 :=
  and_F000 (familyOf_formatRRN hf x y n)

theorem formatRRN_and_F00F (x y n : Fin 16) : formatRRN f x y n &&& 0xF00F#16 = formatRRN f 0 0 n :=
  and_F00F (familyOf_formatRRN hf x y n) (fieldN_formatRRN f x y n)

theorem formatRK_and_F0FF (x : Reg) (kk : Byte) : formatRK f x kk &&& 0xF0FF#16 = formatRK f 0 kk :=
  and_F0FF (familyOf_formatRK hf x kk) (fieldKK_formatRK f x kk)

end

theorem rowOf_mem_opcodeMap (i : Instr) : rowOf i ∈ opcodeMap := by
  cases i <;> dsimp only [rowOf, rowMask, rowExcept, Instr.mnemonic, encode]
  case clearScreen | ret => decide
  case sys | jump | call | loadIndex | jumpOffRegister => rw [formatA_and_F000 (by decide)]; decide
  case skipIfEqualByte | skipIfNotEqualByte | loadLiteral | addLiteral | random =>
    rw [formatRK_and_F000 (by decide)]; decide
  case draw => rw [formatRRN_and_F000 (by decide)]; decide
  case skipIfEqualRegisters | registerCopy | or | and | xor | addWithCarry | subtract | shiftRight | reverseSubtract
    | shiftLeft | skipIfNotEqualRegisters =>
    rw [formatRRN_and_F00F (by decide)]; decide
  case skipIfKeyPressed | skipIfKeyNotPressed | loadFromDelayTimer | waitForKey | setDelayTimer | setSoundTimer
    | addIndex | loadSpriteAddress | storeBcd | storeRegistersToMemory | loadRegistersFromMemory =>
    rw [formatRK_and_F0FF (by decide)]; decide

theorem opcodeMap_names_nodup : (opcodeMap.map OpcodeRow.name).Nodup := by decide

/-- No two rows have one name. -/
theorem eq_rowOf_of_name {row : OpcodeRow} {i : Instr} (h : row ∈ opcodeMap) (name : i.mnemonic = row.name) :
    row = rowOf i :=
  List.inj_on_of_nodup_map opcodeMap_names_nodup h (rowOf_mem_opcodeMap i) name.symm

/-- R95: the two exceptions of `sys` are the words of the two instructions without operands. -/
theorem rowOf_selects_encode {i : Instr} (h : i.wellFormed = true) : (rowOf i).selects (encode i) = true := by
  rw [OpcodeRow.selects, rowOf, beq_self_eq_true, Bool.true_and]
  cases i with
  | sys nnn =>
    have not_clear : encode (.sys nnn) ≠ 0x00E0#16 := fun e => nomatch encode_inj (j := .clearScreen) h rfl e
    have not_ret : encode (.sys nnn) ≠ 0x00EE#16 := fun e => nomatch encode_inj (j := .ret) h rfl e
    simp [rowExcept, not_clear, not_ret]
  | _ => rfl

/-! ### A word that a row selects is an encoding -/

section

variable {row : OpcodeRow} {op : Word}

theorem and_mask_of_selects (h : row.selects op = true) : op &&& row.mask = row.pattern := by
  simp only [OpcodeRow.selects, Bool.and_eq_true, beq_iff_eq] at h
  exact h.1

theorem not_mem_except_of_selects (h : row.selects op = true) : op ∉ row.except := by
  simp only [OpcodeRow.selects, Bool.and_eq_true, Bool.not_eq_true', List.contains_eq_mem, decide_eq_false_iff_not] at h
  exact h.2

theorem familyOf_of_selects {f : BitVec 4} (h : row.selects op = true) (mask : familyOf row.mask = 0xF#4)
    (pattern : familyOf row.pattern = f) : familyOf op = f := by
  rw [← pattern, ← and_mask_of_selects h, familyOf_and mask]

theorem fieldN_of_selects {n : BitVec 4} (h : row.selects op = true) (mask : fieldN row.mask = 0xF#4)
    (pattern : fieldN row.pattern = n) : fieldN op = n := by
  rw [← pattern, ← and_mask_of_selects h, fieldN_and mask]

theorem fieldKK_of_selects {kk : Byte} (h : row.selects op = true) (mask : fieldKK row.mask = 0xFF#8)
    (pattern : fieldKK row.pattern = kk) : fieldKK op = kk := by
  rw [← pattern, ← and_mask_of_selects h, fieldKK_and mask]

theorem eq_pattern_of_selects (h : row.selects op = true) (mask : row.mask = BitVec.allOnes 16) : row.pattern = op := by
  rw [← and_mask_of_selects h, mask, BitVec.and_allOnes]

section

variable {f : Nat} (h : row.selects op = true)
include h

theorem formatA_of_selects (mask : familyOf row.mask = 0xF#4) (pattern : familyOf row.pattern = BitVec.ofNat 4 f) :
    formatA f (fieldNNN op) = op :=
  formatA_fields (familyOf_of_selects h mask pattern)

theorem formatRK_of_selects (mask : familyOf row.mask = 0xF#4) (pattern : familyOf row.pattern = BitVec.ofNat 4 f) :
    formatRK f (fieldX op) (fieldKK op) = op :=
  formatRK_fields (familyOf_of_selects h mask pattern)

theorem formatRRN_of_selects (mask : familyOf row.mask = 0xF#4) (pattern : familyOf row.pattern = BitVec.ofNat 4 f) :
    formatRRN f (fieldX op) (fieldY op) (fieldN op).toFin = op :=
  formatRRN_fields (familyOf_of_selects h mask pattern)

theorem formatRR_of_selects {n : Fin 16} (mask : familyOf row.mask = 0xF#4 ∧ fieldN row.mask = 0xF#4)
    (pattern : familyOf row.pattern = BitVec.ofNat 4 f ∧ fieldN row.pattern = BitVec.ofFin n) :
    formatRRN f (fieldX op) (fieldY op) n = op :=
  formatRRN_of_selector (familyOf_of_selects h mask.1 pattern.1) (fieldN_of_selects h mask.2 pattern.2)

theorem formatRF_of_selects {kk : Byte} (mask : familyOf row.mask = 0xF#4 ∧ fieldKK row.mask = 0xFF#8)
    (pattern : familyOf row.pattern = BitVec.ofNat 4 f ∧ fieldKK row.pattern = kk) :
    formatRK f (fieldX op) kk = op :=
  formatRK_of_function (familyOf_of_selects h mask.1 pattern.1) (fieldKK_of_selects h mask.2 pattern.2)

end

/-- R97: each row names a constructor, whose operands are the fields of the selected word. -/
theorem exists_encode_of_selects (hrow : row ∈ opcodeMap) (h : row.selects op = true) :
    ∃ i : Instr, encode i = op ∧ i.wellFormed = true ∧ i.mnemonic = row.name := by
  fin_cases hrow
  · have word := formatA_of_selects (f := 0x0) h rfl rfl
    have not_fixed := not_mem_except_of_selects h
    refine ⟨.sys (fieldNNN op), word, wellFormed_sys_iff.2 ⟨fun e => not_fixed ?_, fun e => not_fixed ?_⟩, rfl⟩
    · rw [← word, e]; decide
    · rw [← word, e]; decide
  · exact ⟨.clearScreen, eq_pattern_of_selects h rfl, rfl, rfl⟩
  · exact ⟨.ret, eq_pattern_of_selects h rfl, rfl, rfl⟩
  · exact ⟨.jump (fieldNNN op), formatA_of_selects h rfl rfl, rfl, rfl⟩
  · exact ⟨.call (fieldNNN op), formatA_of_selects h rfl rfl, rfl, rfl⟩
  · exact ⟨.skipIfEqualByte (fieldX op) (fieldKK op), formatRK_of_selects h rfl rfl, rfl, rfl⟩
  · exact ⟨.skipIfNotEqualByte (fieldX op) (fieldKK op), formatRK_of_selects h rfl rfl, rfl, rfl⟩
  · exact ⟨.skipIfEqualRegisters (fieldX op) (fieldY op), formatRR_of_selects h ⟨rfl, rfl⟩ ⟨rfl, rfl⟩, rfl, rfl⟩
  · exact ⟨.loadLiteral (fieldX op) (fieldKK op), formatRK_of_selects h rfl rfl, rfl, rfl⟩
  · exact ⟨.addLiteral (fieldX op) (fieldKK op), formatRK_of_selects h rfl rfl, rfl, rfl⟩
  · exact ⟨.registerCopy (fieldX op) (fieldY op), formatRR_of_selects h ⟨rfl, rfl⟩ ⟨rfl, rfl⟩, rfl, rfl⟩
  · exact ⟨.or (fieldX op) (fieldY op), formatRR_of_selects h ⟨rfl, rfl⟩ ⟨rfl, rfl⟩, rfl, rfl⟩
  · exact ⟨.and (fieldX op) (fieldY op), formatRR_of_selects h ⟨rfl, rfl⟩ ⟨rfl, rfl⟩, rfl, rfl⟩
  · exact ⟨.xor (fieldX op) (fieldY op), formatRR_of_selects h ⟨rfl, rfl⟩ ⟨rfl, rfl⟩, rfl, rfl⟩
  · exact ⟨.addWithCarry (fieldX op) (fieldY op), formatRR_of_selects h ⟨rfl, rfl⟩ ⟨rfl, rfl⟩, rfl, rfl⟩
  · exact ⟨.subtract (fieldX op) (fieldY op), formatRR_of_selects h ⟨rfl, rfl⟩ ⟨rfl, rfl⟩, rfl, rfl⟩
  · exact ⟨.shiftRight (fieldX op) (fieldY op), formatRR_of_selects h ⟨rfl, rfl⟩ ⟨rfl, rfl⟩, rfl, rfl⟩
  · exact ⟨.reverseSubtract (fieldX op) (fieldY op), formatRR_of_selects h ⟨rfl, rfl⟩ ⟨rfl, rfl⟩, rfl, rfl⟩
  · exact ⟨.shiftLeft (fieldX op) (fieldY op), formatRR_of_selects h ⟨rfl, rfl⟩ ⟨rfl, rfl⟩, rfl, rfl⟩
  · exact ⟨.skipIfNotEqualRegisters (fieldX op) (fieldY op), formatRR_of_selects h ⟨rfl, rfl⟩ ⟨rfl, rfl⟩, rfl, rfl⟩
  · exact ⟨.loadIndex (fieldNNN op), formatA_of_selects h rfl rfl, rfl, rfl⟩
  · exact ⟨.jumpOffRegister (fieldNNN op), formatA_of_selects h rfl rfl, rfl, rfl⟩
  · exact ⟨.random (fieldX op) (fieldKK op), formatRK_of_selects h rfl rfl, rfl, rfl⟩
  · exact ⟨.draw (fieldX op) (fieldY op) (fieldN op).toFin, formatRRN_of_selects h rfl rfl, rfl, rfl⟩
  · exact ⟨.skipIfKeyPressed (fieldX op), formatRF_of_selects h ⟨rfl, rfl⟩ ⟨rfl, rfl⟩, rfl, rfl⟩
  · exact ⟨.skipIfKeyNotPressed (fieldX op), formatRF_of_selects h ⟨rfl, rfl⟩ ⟨rfl, rfl⟩, rfl, rfl⟩
  · exact ⟨.loadFromDelayTimer (fieldX op), formatRF_of_selects h ⟨rfl, rfl⟩ ⟨rfl, rfl⟩, rfl, rfl⟩
  · exact ⟨.waitForKey (fieldX op), formatRF_of_selects h ⟨rfl, rfl⟩ ⟨rfl, rfl⟩, rfl, rfl⟩
  · exact ⟨.setDelayTimer (fieldX op), formatRF_of_selects h ⟨rfl, rfl⟩ ⟨rfl, rfl⟩, rfl, rfl⟩
  · exact ⟨.setSoundTimer (fieldX op), formatRF_of_selects h ⟨rfl, rfl⟩ ⟨rfl, rfl⟩, rfl, rfl⟩
  · exact ⟨.addIndex (fieldX op), formatRF_of_selects h ⟨rfl, rfl⟩ ⟨rfl, rfl⟩, rfl, rfl⟩
  · exact ⟨.loadSpriteAddress (fieldX op), formatRF_of_selects h ⟨rfl, rfl⟩ ⟨rfl, rfl⟩, rfl, rfl⟩
  · exact ⟨.storeBcd (fieldX op), formatRF_of_selects h ⟨rfl, rfl⟩ ⟨rfl, rfl⟩, rfl, rfl⟩
  · exact ⟨.storeRegistersToMemory (fieldX op), formatRF_of_selects h ⟨rfl, rfl⟩ ⟨rfl, rfl⟩, rfl, rfl⟩
  · exact ⟨.loadRegistersFromMemory (fieldX op), formatRF_of_selects h ⟨rfl, rfl⟩ ⟨rfl, rfl⟩, rfl, rfl⟩

end

/-- Settles O4: a selected word is the encoding of an instruction of that name; the other way round, names are unique in
the map, and the row of an instruction selects its encoding. -/
theorem decodeFollowsTheOpcodeMap : Obligations.DecodeFollowsTheOpcodeMap := by
  unfold Obligations.DecodeFollowsTheOpcodeMap
  intro op row hrow
  constructor
  · intro h
    obtain ⟨i, rfl, wf, name⟩ := exists_encode_of_selects hrow h
    exact ⟨i, decode_encode wf, name⟩
  · rintro ⟨i, decoded, name⟩
    obtain ⟨rfl, wf⟩ := encode_of_decode decoded
    rw [eq_rowOf_of_name hrow name]
    exact rowOf_selects_encode wf

end Sys2Proof.Laws

/-! Who writes what (spec/10_state.md R22, R37): the cells each instruction may write, and what each cell then holds. -/

namespace Sys2Proof.Machine

/-! ### The paths of the instructions that can raise a fault -/

theorem exec_call_cases (nnn : Addr) (s : State) :
    exec (.call nnn) s = raise .stackOverflow s ∨
    ∃ h : s.sp.val < 16, exec (.call nnn) s = .next (State.setPc
      { s with stack := s.stack.set s.sp.val s.nextPc, sp := ⟨s.sp.val + 1, by omega⟩ } (addrLiteral nnn)) := by
  by_cases h : s.sp.val < 16
  · exact .inr ⟨h, exec_call_of_lt h nnn⟩
  · exact .inl (exec_call_of_full (by omega) nnn)

theorem exec_ret_cases (s : State) :
    exec .ret s = raise .stackUnderflow s ∨
    ∃ h : 0 < s.sp.val, exec .ret s = .next (State.setPc
      { s with sp := ⟨s.sp.val - 1, by omega⟩ } (s.stack[s.sp.val - 1]'(by omega))) := by
  by_cases h : 0 < s.sp.val
  · exact .inr ⟨h, exec_ret_of_pos h⟩
  · exact .inl (exec_ret_of_empty (by omega))

theorem exec_skipIfKeyPressed_cases (x : Reg) (s : State) :
    exec (.skipIfKeyPressed x) s = raise .keyIndexRange s ∨ ∃ c, exec (.skipIfKeyPressed x) s = .next (s.skipIf c) := by
  by_cases h : (s.reg x).toNat ≤ 15
  · exact .inr ⟨_, exec_skipIfKeyPressed_of_le h⟩
  · exact .inl (exec_skipIfKeyPressed_of_gt (by omega))

theorem exec_skipIfKeyNotPressed_cases (x : Reg) (s : State) :
    exec (.skipIfKeyNotPressed x) s = raise .keyIndexRange s ∨
    ∃ c, exec (.skipIfKeyNotPressed x) s = .next (s.skipIf c) := by
  by_cases h : (s.reg x).toNat ≤ 15
  · exact .inr ⟨_, exec_skipIfKeyNotPressed_of_le h⟩
  · exact .inl (exec_skipIfKeyNotPressed_of_gt (by omega))

/-- An instruction answers one state. -/
theorem eq_of_exec {i : Instr} {s t u : State} (h : exec i s = .next t) (e : exec i s = .next u) : u = t :=
  Host.Outcome.next.inj (e.symm.trans h)

/-! ### The cells an instruction may write -/

/-- R37, read by instruction: the state `s` in which the cells that `i` may write are taken from `t`. What `exec` answers
has no other cell changed, by `exec_frame`. -/
def withWritten (i : Instr) (s t : State) : State :=
  match i with
  | .clearScreen => { s with pc := t.pc, fb := t.fb }
  | .ret => { s with pc := t.pc, sp := t.sp, fault := t.fault }
  | .call _ => { s with pc := t.pc, stack := t.stack, sp := t.sp, fault := t.fault }
  | .sys _ | .jump _ | .jumpOffRegister _ | .skipIfEqualByte _ _ | .skipIfNotEqualByte _ _ | .skipIfEqualRegisters _ _
  | .skipIfNotEqualRegisters _ _ => { s with pc := t.pc }
  | .skipIfKeyPressed _ | .skipIfKeyNotPressed _ => { s with pc := t.pc, fault := t.fault }
  | .loadLiteral _ _ | .addLiteral _ _ | .registerCopy _ _ | .or _ _ | .and _ _ | .xor _ _ | .addWithCarry _ _
  | .subtract _ _ | .shiftRight _ _ | .reverseSubtract _ _ | .shiftLeft _ _ | .loadFromDelayTimer _
  | .loadRegistersFromMemory _ => { s with pc := t.pc, v := t.v }
  | .random _ _ => { s with pc := t.pc, v := t.v, drawCount := t.drawCount }
  | .draw _ _ _ => { s with pc := t.pc, v := t.v, fb := t.fb }
  | .waitForKey _ => { s with pc := t.pc, waiting := t.waiting, waitReg := t.waitReg }
  | .setDelayTimer _ => { s with pc := t.pc, dt := t.dt }
  | .setSoundTimer _ => { s with pc := t.pc, st := t.st }
  | .loadIndex _ | .addIndex _ | .loadSpriteAddress _ => { s with pc := t.pc, i := t.i }
  | .storeBcd _ | .storeRegistersToMemory _ => { s with pc := t.pc, mem := t.mem }

section

variable {i : Instr} {s t : State} (h : exec i s = .next t)
include h

theorem exec_frame : t = withWritten i s t := by
  cases i with
  | call nnn =>
    obtain e | ⟨_, e⟩ := exec_call_cases nnn s <;> obtain rfl := eq_of_exec h e <;> rfl
  | ret =>
    obtain e | ⟨_, e⟩ := exec_ret_cases s <;> obtain rfl := eq_of_exec h e <;> rfl
  | skipIfKeyPressed x =>
    obtain e | ⟨_, e⟩ := exec_skipIfKeyPressed_cases x s <;> obtain rfl := eq_of_exec h e <;> rfl
  | skipIfKeyNotPressed x =>
    obtain e | ⟨_, e⟩ := exec_skipIfKeyNotPressed_cases x s <;> obtain rfl := eq_of_exec h e <;> rfl
  | storeRegistersToMemory x =>
    obtain rfl := eq_of_exec h rfl
    rw [State.memWriteBytes_eq]
    rfl
  | loadRegistersFromMemory x =>
    obtain rfl := eq_of_exec h rfl
    rw [State.loadRegs_eq]
    rfl
  | _ => obtain rfl := eq_of_exec h rfl; rfl

/-! ### The columns of R37 -/

theorem exec_i : t.i = s.i ∨ (∃ nnn, i = .loadIndex nnn) ∨ (∃ x, i = .addIndex x) ∨ ∃ x, i = .loadSpriteAddress x := by
  rw [exec_frame h]
  cases i with
  | loadIndex nnn => exact .inr (.inl ⟨nnn, rfl⟩)
  | addIndex x => exact .inr (.inr (.inl ⟨x, rfl⟩))
  | loadSpriteAddress x => exact .inr (.inr (.inr ⟨x, rfl⟩))
  | _ => exact .inl rfl

theorem exec_stack : t.stack = s.stack ∨ ∃ nnn, i = .call nnn := by
  rw [exec_frame h]
  cases i with
  | call nnn => exact .inr ⟨nnn, rfl⟩
  | _ => exact .inl rfl

theorem exec_sp : t.sp = s.sp ∨ (∃ nnn, i = .call nnn) ∨ i = .ret := by
  rw [exec_frame h]
  cases i with
  | call nnn => exact .inr (.inl ⟨nnn, rfl⟩)
  | ret => exact .inr (.inr rfl)
  | _ => exact .inl rfl

theorem exec_dt : t.dt = s.dt ∨ ∃ x, i = .setDelayTimer x := by
  rw [exec_frame h]
  cases i with
  | setDelayTimer x => exact .inr ⟨x, rfl⟩
  | _ => exact .inl rfl

theorem exec_st : t.st = s.st ∨ ∃ x, i = .setSoundTimer x := by
  rw [exec_frame h]
  cases i with
  | setSoundTimer x => exact .inr ⟨x, rfl⟩
  | _ => exact .inl rfl

theorem exec_keys : t.keys = s.keys := by
  rw [exec_frame h]
  cases i <;> rfl

theorem exec_fb : t.fb = s.fb ∨ i = .clearScreen ∨ ∃ x y n, i = .draw x y n := by
  rw [exec_frame h]
  cases i with
  | clearScreen => exact .inr (.inl rfl)
  | draw x y n => exact .inr (.inr ⟨x, y, n, rfl⟩)
  | _ => exact .inl rfl

theorem exec_waiting : t.waiting = s.waiting ∨ ∃ x, i = .waitForKey x := by
  rw [exec_frame h]
  cases i with
  | waitForKey x => exact .inr ⟨x, rfl⟩
  | _ => exact .inl rfl

theorem exec_waitReg : t.waitReg = s.waitReg ∨ ∃ x, i = .waitForKey x := by
  rw [exec_frame h]
  cases i with
  | waitForKey x => exact .inr ⟨x, rfl⟩
  | _ => exact .inl rfl

theorem exec_fault : t.fault = s.fault ∨
    (∃ nnn, i = .call nnn) ∨ i = .ret ∨ (∃ x, i = .skipIfKeyPressed x) ∨ ∃ x, i = .skipIfKeyNotPressed x := by
  rw [exec_frame h]
  cases i with
  | call nnn => exact .inr (.inl ⟨nnn, rfl⟩)
  | ret => exact .inr (.inr (.inl rfl))
  | skipIfKeyPressed x => exact .inr (.inr (.inr (.inl ⟨x, rfl⟩)))
  | skipIfKeyNotPressed x => exact .inr (.inr (.inr (.inr ⟨x, rfl⟩)))
  | _ => exact .inl rfl

theorem exec_drawCount : t.drawCount = s.drawCount ∨ ∃ x kk, i = .random x kk := by
  rw [exec_frame h]
  cases i with
  | random x kk => exact .inr ⟨x, kk, rfl⟩
  | _ => exact .inl rfl

/-- R66: an instruction that stores writes `storedBytes` many bytes from I upwards. -/
theorem exec_mem : t.mem = s.mem ∨
    ∃ bs : List Byte, bs.length = storedBytes i ∧ bs.length ≤ 16 ∧ t.mem = (s.memWriteBytes s.i.toNat bs).mem := by
  cases i with
  | storeBcd x =>
    obtain rfl := eq_of_exec h rfl
    have length := length_bcdDigits (s.reg x)
    exact .inr ⟨bcdDigits (s.reg x), length, by omega, rfl⟩
  | storeRegistersToMemory x =>
    obtain rfl := eq_of_exec h rfl
    have length := s.length_regsUpTo x
    exact .inr ⟨s.regsUpTo x, length, by omega, rfl⟩
  | _ =>
    rw [exec_frame h]
    exact .inl rfl

end

/-- Settles O37: each clause is the column of its cell. -/
theorem specialCellsChangeOnlyByTheirInstructions : Obligations.SpecialCellsChangeOnlyByTheirInstructions := by
  unfold Obligations.SpecialCellsChangeOnlyByTheirInstructions
  intro i s t h
  exact ⟨(exec_i h).resolve_left, (exec_stack h).resolve_left, (exec_sp h).resolve_left, (exec_dt h).resolve_left,
    (exec_st h).resolve_left, exec_keys h, (exec_fb h).resolve_left, (exec_waiting h).resolve_left,
    (exec_waitReg h).resolve_left, (exec_fault h).resolve_left, (exec_drawCount h).resolve_left⟩

/-! ### The general registers -/

section

variable {x r : Reg} {w : Byte} {s t : State}

theorem reg_writeReg (h : writeReg x w s = .next t) (hr : (r == x) = false) : t.reg r = s.reg r := by
  obtain rfl := Host.Outcome.next.inj h
  rw [State.reg_congr (State.advance_v _), State.reg_setReg, if_neg (beq_eq_false_iff_ne.1 hr)]

theorem reg_writeRegAndFlag {c : Bool} (h : writeRegAndFlag x w c s = .next t)
    (hr : (r == x || r == flagReg) = false) : t.reg r = s.reg r := by
  obtain ⟨hx, hflag⟩ := Bool.or_eq_false_iff.1 hr
  obtain rfl := Host.Outcome.next.inj h
  rw [State.reg_congr (State.advance_v _), State.reg_setResultAndFlag, if_neg (beq_eq_false_iff_ne.1 hflag),
    if_neg (beq_eq_false_iff_ne.1 hx)]

end

/-- Settles O35: the two shapes of an ALU instruction, the flag of `draw` and the registers of a block load are
what `mayWriteReg` names, and no other instruction writes a register at all. -/
theorem onlyNamedRegistersChange : Obligations.OnlyNamedRegistersChange := by
  unfold Obligations.OnlyNamedRegistersChange
  intro i s t r h hr
  change t.reg r = s.reg r
  cases i with
  | loadLiteral | addLiteral | registerCopy | or | and | xor => exact reg_writeReg h hr
  | random x kk => exact reg_writeReg (s := s.countDraw) h hr
  | loadFromDelayTimer x => exact reg_writeReg (w := s.dt) h hr
  | addWithCarry | subtract | reverseSubtract | shiftRight | shiftLeft => exact reg_writeRegAndFlag h hr
  | draw x y n =>
    obtain rfl := eq_of_exec h rfl
    rw [State.reg_congr (State.advance_v _), State.reg_setFlag, if_neg (beq_eq_false_iff_ne.1 hr)]
    rfl
  | loadRegistersFromMemory x =>
    obtain rfl := eq_of_exec h rfl
    have above : ¬ r.val < x.val + 1 := fun le => of_decide_eq_false hr (Nat.le_of_lt_succ le)
    rw [State.reg_congr (State.advance_v _), State.reg_loadRegs s x.isLt, if_neg above]
  | _ =>
    rw [exec_frame h]
    rfl

/-! ### The bytes of memory -/

/-- Settles O36: an address to which none of the stored bytes goes reads as before. -/
theorem onlyStoredBytesChange : Obligations.OnlyStoredBytesChange := by
  unfold Obligations.OnlyStoredBytesChange
  intro i s t a w h ha
  obtain kept | ⟨bs, length, short, stored⟩ := exec_mem h
  · exact State.memRead_congr kept a
  · rw [State.memRead_congr stored]
    exact State.memRead_memWriteBytes_of_ne w s.i.toNat (by omega) (length ▸ ha)

end Sys2Proof.Machine

/-! The step as a whole (spec/40_dispatcher.md R120 to R131, spec/20_memory.md R63, R64): the fetched word, the four
things a step does, and what no step changes. -/

namespace Sys2Proof.Machine

open Sys2Proof.Laws

/-! ### The fetched word -/

theorem wordOfBytes_toNat (hi lo : Byte) : (wordOfBytes hi lo).toNat = hi.toNat * 256 + lo.toNat := by
  have := hi.isLt
  have := lo.isLt
  rw [wordOfBytes, BitVec.toNat_ofNat]
  omega

/-- Settles O7: the two bytes make the word without overflow, and each address is reduced modulo 4096. -/
theorem fetchIsBigEndianAtPc : Obligations.FetchIsBigEndianAtPc := by
  unfold Obligations.FetchIsBigEndianAtPc
  exact fun _ => ⟨wordOfBytes_toNat _ _, rfl, rfl⟩

/-- A fetch reads memory and PC only. -/
theorem State.fetch_congr {s t : State} (hmem : t.mem = s.mem) (hpc : t.pc = s.pc) : t.fetch = s.fetch := by
  rw [State.fetch, State.fetch, hpc, State.memRead_congr hmem, State.memRead_congr hmem]

/-- R63, R64: the two bytes of a word stored at PC and PC + 1 are fetched as the word; the second does not overwrite the
first, because their addresses differ modulo 4096. -/
theorem State.fetch_of_stored {s : State} (w : s.mem.wf = true) (op : Word) :
    ((s.memWrite s.pc.toNat (highByte op)).memWrite (s.pc.toNat + 1) (lowByte op)).fetch = op := by
  have w' := State.memWrite_wf w s.pc.toNat (highByte op)
  have apart : maskAddr s.pc.toNat ≠ maskAddr (s.pc.toNat + 1) := by
    rw [maskAddr_eq, maskAddr_eq]
    omega
  rw [State.fetch, State.memWrite_pc, State.memWrite_pc, State.memRead_after_memWrite w',
    State.memRead_after_memWrite w', State.memRead_after_memWrite w, if_neg apart, if_pos rfl, if_pos rfl,
    wordOfBytes_highByte_lowByte]

/-- Logs 11 and 12: the placed word is the fetched one. -/
theorem State.fetch_withFetchWord {s : State} (w : s.mem.wf = true) (nbits n : Nat) :
    (s.withFetchWord nbits n).fetch = tableWord nbits n :=
  (State.fetch_congr rfl rfl).trans (State.fetch_of_stored w (tableWord nbits n))

/-- Settles O8: the state with a placed word is running and fetches the word. -/
theorem stepRunsThePlacedWord : Obligations.StepRunsThePlacedWord := by
  unfold Obligations.StepRunsThePlacedWord
  intro s n i w placed
  refine step_of_decoded rfl rfl ?_
  rw [State.fetch_withFetchWord w]
  exact decodeTableWord_eq_some.1 placed

/-! ### What a step can do -/

/-- Settles O6: the last stage of the step is `exec`, and nothing stands around it. -/
theorem stepRunsTheDecodedInstruction : Obligations.StepRunsTheDecodedInstruction := by
  unfold Obligations.StepRunsTheDecodedInstruction
  exact fun _ _ hf hw decoded => step_of_decoded hf hw decoded

/-- R128: the four paths of a step, with what it answers on each. -/
theorem step_cases {s t : State} (h : step s = .next t) :
    (s.fault ≠ none ∧ t = s) ∨
    (s.fault = none ∧ s.waiting = true ∧ t = s.keyWaitCheck) ∨
    (s.Running ∧ t = { s with fault := some .illegalOpcode }) ∨
    (s.Running ∧ ∃ i, decode s.fetch = .ok i ∧ exec i s = .next t) := by
  by_cases hf : s.fault = none
  · obtain hw | hw := s.waiting.eq_false_or_eq_true
    · exact .inr (.inl ⟨hf, hw, Host.Outcome.next.inj (h.symm.trans (step_of_waiting hf hw))⟩)
    · cases hd : decode s.fetch with
      | error e =>
        exact .inr (.inr (.inl ⟨⟨hf, hw⟩, Host.Outcome.next.inj (h.symm.trans (step_of_illegal hf hw hd))⟩))
      | ok i => exact .inr (.inr (.inr ⟨⟨hf, hw⟩, i, rfl, (step_of_decoded hf hw hd).symm.trans h⟩))
  · exact .inl ⟨hf, Host.Outcome.next.inj (h.symm.trans (step_of_faulted hf))⟩

/-- Settles O12: a running step latches the cause that the table of causes gives for the fetched word; when it gives
none, the word is an instruction, which runs and leaves the latch clear. -/
theorem stepDoesOneOfFourThings : Obligations.StepDoesOneOfFourThings := by
  unfold Obligations.StepDoesOneOfFourThings
  intro s
  by_cases hf : s.fault = none
  · obtain hw | hw := s.waiting.eq_false_or_eq_true
    · exact .inr (.inl ⟨hf, hw, step_of_waiting hf hw⟩)
    · refine .inr (.inr ?_)
      by_cases raised : ∃ c, Raises s (decode s.fetch) c
      · obtain ⟨c, hc⟩ := raised
        exact .inl ⟨hf, hw, c, step_of_raises hf hw hc⟩
      · have none_raised := not_exists.1 raised
        cases hd : decode s.fetch with
        | error e => exact absurd (hd ▸ .illegalWord e) (none_raised .illegalOpcode)
        | ok i =>
          obtain ⟨t, ht, kept⟩ := exec_fault_of_not_raises (hd ▸ none_raised)
          exact .inr ⟨hf, hw, i, t, rfl, ht, (step_of_decoded hf hw hd).trans ht, kept.trans hf⟩
  · exact .inl ⟨hf, step_of_faulted hf⟩

/-- R120: the step is total. -/
theorem exists_step (s : State) : ∃ t, step s = .next t := by
  obtain ⟨_, h⟩ | ⟨_, _, h⟩ | ⟨_, _, _, h⟩ | ⟨_, _, _, _, _, _, h, _⟩ := stepDoesOneOfFourThings s
  · exact ⟨_, h⟩
  · exact ⟨_, h⟩
  · exact ⟨_, h⟩
  · exact ⟨_, h⟩

/-- R122: the key check writes the register file and the suspension only. -/
theorem State.keyWaitCheck_eq (s : State) :
    s.keyWaitCheck = { s with v := s.keyWaitCheck.v, waiting := s.keyWaitCheck.waiting } := by
  obtain ⟨_, h⟩ | ⟨_, _, _, h⟩ := s.keyWaitCheck_cases
  · rw [h]
  · rw [h]

/-- Settles O14: of the four paths only the executing one writes a timer, and there R37 names the instruction. -/
theorem stepNeverTouchesHostInputs : Obligations.StepNeverTouchesHostInputs := by
  unfold Obligations.StepNeverTouchesHostInputs
  intro s t h
  obtain ⟨_, rfl⟩ | ⟨hf, _, rfl⟩ | ⟨running, rfl⟩ | ⟨running, i, decoded, executed⟩ := step_cases h
  · exact ⟨rfl, absurd rfl, absurd rfl, fun _ => rfl⟩
  · rw [State.keyWaitCheck_eq]
    exact ⟨rfl, absurd rfl, absurd rfl, fun _ => rfl⟩
  · exact ⟨rfl, absurd rfl, absurd rfl, absurd running.1⟩
  · refine ⟨exec_keys executed, fun changed => ?_, fun changed => ?_, absurd running.1⟩
    · obtain ⟨x, rfl⟩ := (exec_dt executed).resolve_left changed
      exact ⟨x, decoded⟩
    · obtain ⟨x, rfl⟩ := (exec_st executed).resolve_left changed
      exact ⟨x, decoded⟩

/-- Settles O53: the jump writes to PC the address that PC holds. -/
theorem jumpToSelfIsEndOfRun : Obligations.JumpToSelfIsEndOfRun := by
  unfold Obligations.JumpToSelfIsEndOfRun
  intro s nnn hf hw hpc decoded
  have jumped : step s = .next { s with pc := nnn.setWidth 16 } :=
    (step_of_decoded hf hw decoded).trans (congrArg _ (s.setPc_addrLiteral nnn))
  exact ⟨⟨hf, hw⟩, by rw [jumped, ← hpc]⟩

end Sys2Proof.Machine

/-! The invariants of the state (spec/10_state.md R38, section 15): they hold at reset and after every event. -/

namespace Sys2Proof.Machine

/-- The invariants speak of six cells only. -/
theorem State.Inv.congr {s t : State} (inv : s.Inv) (mem_wf : t.mem.wf = true) (pc : t.pc = s.pc) (i : t.i = s.i)
    (stack : t.stack = s.stack) (waiting : t.waiting = s.waiting) (fault : t.fault = s.fault) : t.Inv where
  mem_wf := mem_wf
  pc_le := pc ▸ inv.pc_le
  i_le := i ▸ inv.i_le
  stack_le := stack ▸ inv.stack_le
  not_waiting_faulted := by
    rw [waiting, fault]
    exact inv.not_waiting_faulted

/-- Settles O17: memory lists no cell, and every address cell is 0 but PC, which is 0x200. -/
theorem resetSatisfiesTheInvariants : Obligations.ResetSatisfiesTheInvariants where
  mem_wf := State.reset_wf
  pc_le := by decide
  i_le := by decide
  stack_le := by decide
  not_waiting_faulted := by decide

/-- R127: either target of a skip is reduced to 12 bits. -/
theorem State.exists_skipIf_pc (s : State) (c : Bool) : ∃ w, (s.skipIf c).pc = mask12 w := by
  cases c with
  | true => exact ⟨s.pc + 4, rfl⟩
  | false => exact ⟨s.pc + 2, rfl⟩

/-! ### What an instruction leaves in the cells the invariants speak of -/

section

variable {i : Instr} {s t : State} (h : exec i s = .next t)
include h

/-- R24, R140: every write of PC is reduced to 12 bits; a raised fault writes none. -/
theorem exec_pc : t.pc = s.pc ∨ ∃ w, t.pc = mask12 w := by
  cases i with
  | call nnn =>
    obtain e | ⟨_, e⟩ := exec_call_cases nnn s <;> obtain rfl := eq_of_exec h e
    · exact .inl rfl
    · exact .inr ⟨_, rfl⟩
  | ret =>
    obtain e | ⟨_, e⟩ := exec_ret_cases s <;> obtain rfl := eq_of_exec h e
    · exact .inl rfl
    · exact .inr ⟨_, rfl⟩
  | skipIfKeyPressed x =>
    obtain e | ⟨c, e⟩ := exec_skipIfKeyPressed_cases x s <;> obtain rfl := eq_of_exec h e
    · exact .inl rfl
    · exact .inr (s.exists_skipIf_pc c)
  | skipIfKeyNotPressed x =>
    obtain e | ⟨c, e⟩ := exec_skipIfKeyNotPressed_cases x s <;> obtain rfl := eq_of_exec h e
    · exact .inl rfl
    · exact .inr (s.exists_skipIf_pc c)
  | skipIfEqualByte | skipIfNotEqualByte | skipIfEqualRegisters | skipIfNotEqualRegisters =>
    obtain rfl := eq_of_exec h rfl
    exact .inr (s.exists_skipIf_pc _)
  | _ =>
    obtain rfl := eq_of_exec h rfl
    exact .inr ⟨_, rfl⟩

theorem exec_pc_le (le : s.pc.toNat ≤ 0xFFF) : t.pc.toNat ≤ 0xFFF := by
  obtain kept | ⟨w, reduced⟩ := exec_pc h
  · exact kept ▸ le
  · exact reduced ▸ mask12_le w

/-- R23, R200: the three instructions that write I reduce it to 12 bits. -/
theorem exec_i_le (le : s.i.toNat ≤ 0xFFF) : t.i.toNat ≤ 0xFFF := by
  obtain kept | ⟨_, rfl⟩ | ⟨_, rfl⟩ | ⟨_, rfl⟩ := exec_i h
  · exact kept ▸ le
  · obtain rfl := eq_of_exec h rfl
    exact mask12_le _
  · obtain rfl := eq_of_exec h rfl
    exact mask12_le _
  · obtain rfl := eq_of_exec h rfl
    exact mask12_le _

/-- R143: the one value that is pushed is NEXT, which is reduced to 12 bits. -/
theorem exec_stack_le (le : ∀ k : Fin 16, s.stack[k].toNat ≤ 0xFFF) (k : Fin 16) : t.stack[k].toNat ≤ 0xFFF := by
  obtain kept | ⟨nnn, rfl⟩ := exec_stack h
  · exact kept ▸ le k
  · obtain e | ⟨_, e⟩ := exec_call_cases nnn s <;> obtain rfl := eq_of_exec h e
    · exact le k
    · rw [State.setPc_stack, Fin.getElem_fin, Vector.getElem_set]
      split_ifs
      · exact mask12_le _
      · exact le k

theorem exec_mem_wf (w : s.mem.wf = true) : t.mem.wf = true := by
  obtain kept | ⟨bs, _, _, stored⟩ := exec_mem h
  · exact kept ▸ w
  · exact stored ▸ State.memWriteBytes_wf bs w _

/-- The one instruction that suspends is none of the four that can raise a fault. -/
theorem exec_not_waiting_faulted (running : s.Running) : ¬ (t.waiting = true ∧ t.fault ≠ none) := by
  rintro ⟨waiting, faulted⟩
  have suspended : t.waiting ≠ s.waiting := by simp [waiting, running.2]
  have latched : t.fault ≠ s.fault := running.1.symm ▸ faulted
  obtain ⟨x, rfl⟩ := (exec_waiting h).resolve_left suspended
  obtain ⟨_, e⟩ | e | ⟨_, e⟩ | ⟨_, e⟩ := (exec_fault h).resolve_left latched <;> cases e

theorem exec_inv (running : s.Running) (inv : s.Inv) : t.Inv where
  mem_wf := exec_mem_wf h inv.mem_wf
  pc_le := exec_pc_le h inv.pc_le
  i_le := exec_i_le h inv.i_le
  stack_le := exec_stack_le h inv.stack_le
  not_waiting_faulted := exec_not_waiting_faulted h running

end

/-- Settles O18: a suspended or faulted state and a raised fault keep the cells the invariants speak of, and an
instruction keeps the invariants of a running state. -/
theorem stepKeepsTheInvariants : Obligations.StepKeepsTheInvariants := by
  unfold Obligations.StepKeepsTheInvariants
  intro s t inv h
  obtain ⟨_, rfl⟩ | ⟨hf, _, rfl⟩ | ⟨running, rfl⟩ | ⟨running, i, _, executed⟩ := step_cases h
  · exact inv
  · rw [State.keyWaitCheck_eq]
    exact ⟨inv.mem_wf, inv.pc_le, inv.i_le, inv.stack_le, fun both => both.2 hf⟩
  · have not_waiting : ¬ s.waiting = true := by simp [running.2]
    exact ⟨inv.mem_wf, inv.pc_le, inv.i_le, inv.stack_le, fun both => not_waiting both.1⟩
  · exact exec_inv executed running inv

/-! ### Host actions and runs -/

theorem HostAction.apply_inv (a : HostAction) {s : State} (inv : s.Inv) : (a.apply s).Inv := by
  cases a with
  | load image => exact inv.congr (s.load_wf image) rfl rfl rfl rfl rfl
  | reset => exact State.Inv.congr resetSatisfiesTheInvariants State.reset_wf rfl rfl rfl rfl rfl
  | _ => exact inv.congr inv.mem_wf rfl rfl rfl rfl rfl

/-- Every event answers a next state, in which the invariants hold again. -/
theorem Event.run_inv (e : Event) {s : State} (inv : s.Inv) : ∃ t, e.run s = .next t ∧ t.Inv := by
  cases e with
  | step =>
    obtain ⟨t, h⟩ := exists_step s
    exact ⟨t, h, stepKeepsTheInvariants s t inv h⟩
  | host a => exact ⟨a.apply s, rfl, a.apply_inv inv⟩

theorem runEvents_cons {e : Event} {s t : State} (h : e.run s = .next t) (es : List Event) :
    runEvents (e :: es) s = runEvents es t := by
  rw [runEvents, h]

/-- Settles O19: by induction on the events, each of which runs through and keeps the invariants. -/
theorem everyInterleavingKeepsTheInvariants : Obligations.EveryInterleavingKeepsTheInvariants := by
  unfold Obligations.EveryInterleavingKeepsTheInvariants
  intro es
  induction es with
  | nil => exact fun s inv => ⟨s, rfl, inv⟩
  | cons e es ih =>
    intro s inv
    obtain ⟨t, ran, inv'⟩ := e.run_inv inv
    rw [runEvents_cons ran]
    exact ih t inv'

/-! ### The faulted condition (spec/60_exceptions.md R236) -/

/-- The cells that the host can write without a reset: memory, the keypad and the timers. -/
def State.withHostCells (s t : State) : State := { s with mem := t.mem, keys := t.keys, dt := t.dt, st := t.st }

/-- The two states differ at most in the cells that the host can write. -/
def State.SameCore (s t : State) : Prop := t = s.withHostCells t

theorem State.SameCore.trans {s t u : State} (h : s.SameCore t) (h' : t.SameCore u) : s.SameCore u := by
  rw [SameCore, h', h]
  rfl

theorem State.SameCore.fault {s t : State} (h : s.SameCore t) : t.fault = s.fault := by
  rw [h]
  rfl

/-- R121, R236: without a reset no event changes a faulted core. -/
theorem Event.run_of_faulted {e : Event} (he : e ≠ .host .reset) {s : State} (hf : s.fault ≠ none) :
    ∃ t, e.run s = .next t ∧ s.SameCore t := by
  cases e with
  | step => exact ⟨s, step_of_faulted hf, rfl⟩
  | host a =>
    refine ⟨a.apply s, rfl, ?_⟩
    cases a with
    | reset => exact absurd rfl he
    | _ => rfl

theorem runEvents_of_faulted {es : List Event} (hes : ∀ e ∈ es, e ≠ .host .reset) {s : State} (hf : s.fault ≠ none) :
    ∃ t, runEvents es s = .next t ∧ s.SameCore t := by
  induction es generalizing s with
  | nil => exact ⟨s, rfl, rfl⟩
  | cons e es ih =>
    obtain ⟨he, hes⟩ := List.forall_mem_cons.1 hes
    obtain ⟨t, ran, same⟩ := Event.run_of_faulted he hf
    obtain ⟨u, ran', same'⟩ := ih hes (same.fault ▸ hf)
    exact ⟨u, (runEvents_cons ran es).trans ran', same.trans same'⟩

/-- Settles O20: the cells of the statement are among those that no event changes. -/
theorem onlyResetLeavesTheFaultedCondition : Obligations.OnlyResetLeavesTheFaultedCondition := by
  unfold Obligations.OnlyResetLeavesTheFaultedCondition
  intro es s hf hes
  obtain ⟨t, ran, same⟩ := runEvents_of_faulted hes hf
  refine ⟨t, ran, ?_⟩
  rw [same]
  exact ⟨rfl, rfl, rfl, rfl, rfl, rfl, rfl, rfl, rfl⟩

end Sys2Proof.Machine

/-! Memory in canonical form (spec/20_memory.md R60, log 5) and the host interface (spec/50_host_interface.md R211 to
R219). -/

namespace Sys2Proof.Machine

/-! ### The canonical form determines the list -/

section

variable {lo lo' a : Nat} {v : Byte} {m m' : Memory}

theorem Memory.wfFrom_cons : Memory.wfFrom lo ((a, v) :: m) = true ↔
    lo ≤ a ∧ a < 4096 ∧ v ≠ Memory.unlisted a ∧ Memory.wfFrom (a + 1) m = true := by
  rw [Memory.wfFrom, Bool.and_eq_true, Bool.and_eq_true, Bool.and_eq_true, decide_eq_true_iff, decide_eq_true_iff,
    bne_iff_ne, and_assoc, and_assoc, params_memSize]

/-- Every address of a canonical list is at least its first. -/
theorem Memory.wfFrom_head (w : Memory.wfFrom lo ((a, v) :: m) = true) : Memory.wfFrom a ((a, v) :: m) = true :=
  Memory.wfFrom_cons.2 ⟨le_refl a, (Memory.wfFrom_cons.1 w).2⟩

theorem Memory.get_cons_self : Memory.get ((a, v) :: m) a = v := if_pos rfl

theorem Memory.get_cons_of_ne {b : Nat} (h : b ≠ a) : Memory.get ((a, v) :: m) b = Memory.get m b := if_neg h

/-- A listed cell differs from its reset contents, so the addresses of a canonical memory that reads it alike do not all
lie above it. -/
theorem Memory.le_of_get_head_eq (w : Memory.wfFrom lo ((a, v) :: m) = true) (w' : Memory.wfFrom lo' m' = true)
    (h : Memory.get ((a, v) :: m) a = Memory.get m' a) : lo' ≤ a := by
  obtain ⟨_, _, listed, _⟩ := Memory.wfFrom_cons.1 w
  by_contra below
  rw [Memory.get_cons_self, Memory.get_below (Nat.lt_of_not_le below) w'] at h
  exact listed h

end

/-- Two canonical lists that read alike have the same first cell, and their tails read alike. -/
theorem Memory.eq_of_get_eq {lo lo' : Nat} {m m' : Memory} (w : Memory.wfFrom lo m = true)
    (w' : Memory.wfFrom lo' m' = true) (h : ∀ a, a < 4096 → Memory.get m a = Memory.get m' a) : m = m' := by
  induction m generalizing lo lo' m' with
  | nil =>
    cases m' with
    | nil => rfl
    | cons c' m' =>
      obtain ⟨_, inside, _⟩ := Memory.wfFrom_cons.1 w'
      have beyond : c'.1 + 1 ≤ c'.1 := Memory.le_of_get_head_eq w' rfl (h c'.1 inside).symm
      omega
  | cons c m ih =>
    obtain ⟨a, v⟩ := c
    obtain ⟨_, inside, _, tail⟩ := Memory.wfFrom_cons.1 w
    cases m' with
    | nil =>
      have beyond : a + 1 ≤ a := Memory.le_of_get_head_eq w rfl (h a inside)
      omega
    | cons c' m' =>
      obtain ⟨b, u⟩ := c'
      obtain ⟨_, inside', _, tail'⟩ := Memory.wfFrom_cons.1 w'
      obtain rfl : a = b := Nat.le_antisymm
        (Memory.le_of_get_head_eq w' (Memory.wfFrom_head w) (h b inside').symm)
        (Memory.le_of_get_head_eq w (Memory.wfFrom_head w') (h a inside))
      obtain rfl : v = u := by simpa only [Memory.get_cons_self] using h a inside
      have tails (x : Nat) (hx : x < 4096) : Memory.get m x = Memory.get m' x := by
        by_cases hxa : x = a
        · rw [hxa, Memory.get_below (Nat.lt_succ_self a) tail, Memory.get_below (Nat.lt_succ_self a) tail']
        · simpa only [Memory.get_cons_of_ne hxa] using h x hx
      rw [ih tail tail' tails]

/-- Settles O21: the canonical form is the one whose addresses may start at 0. -/
theorem canonicalMemoriesThatReadAlikeAreEqual : Obligations.CanonicalMemoriesThatReadAlikeAreEqual := by
  unfold Obligations.CanonicalMemoriesThatReadAlikeAreEqual
  exact fun _ _ => Memory.eq_of_get_eq

/-! ### The ports -/

/-- Settles O50: the bytes of the image lie at ascending addresses from 0 and fill the address space. -/
theorem loadReplacesAllOfMemoryAndNothingElse : Obligations.LoadReplacesAllOfMemoryAndNothingElse := by
  unfold Obligations.LoadReplacesAllOfMemoryAndNothingElse
  intro s image
  refine ⟨fun a h => ?_, s.load_wf image, rfl⟩
  have fits : 0 + image.toList.length ≤ 4096 := by simp
  have inside : a < image.toList.length := by simpa using h
  have read := Memory.get_ofBytes image.toList 0 fits a
  rw [Nat.zero_add, List.getD_eq_getElem _ _ inside, Vector.getElem_toList] at read
  rw [State.memRead, maskAddr_eq, Nat.mod_eq_of_lt h, State.load_mem, read]

theorem tickDown_eq (w : Byte) : tickDown w = BitVec.ofNat 8 (w.toNat - 1) := by
  have := w.isLt
  apply BitVec.eq_of_toNat_eq
  rw [tickDown, BitVec.toNat_ofNat]
  split_ifs with h
  · rw [BitVec.toNat_sub]
    simp only [BitVec.reduceToNat]
    omega
  · omega

/-- Settles O51: each port is one update of one cell; the countdown is two, each stopping at 0. -/
theorem keyAndTimerPortsChangeOneCell : Obligations.KeyAndTimerPortsChangeOneCell := by
  unfold Obligations.KeyAndTimerPortsChangeOneCell
  intro s k b w
  refine ⟨fun j => ?_, rfl, rfl, rfl, ?_⟩
  · simp only [State.keySet_keys, Fin.getElem_fin, Vector.getElem_set, Fin.val_inj, eq_comm]
  · rw [← tickDown_eq, ← tickDown_eq]
    rfl

/-! ### The frame buffer view -/

/-- In a concatenation of lists of one length `n`, the element `i * n + j` is the `j`-th of the `i`-th list. -/
theorem getElem?_flatMap_of_length {α β : Type} {f : α → List β} {n : Nat} (hf : ∀ a, (f a).length = n) (l : List α)
    (i : Nat) {j : Nat} (hj : j < n) : (l.flatMap f)[i * n + j]? = l[i]?.bind fun a => (f a)[j]? := by
  induction l generalizing i with
  | nil => simp
  | cons a l ih =>
    rw [List.flatMap_cons]
    cases i with
    | zero =>
      rw [List.getElem?_append_left (by rw [hf]; omega)]
      simp
    | succ i =>
      have skip : (i + 1) * n + j - (f a).length = i * n + j := by rw [hf, Nat.succ_mul]; omega
      rw [List.getElem?_append_right (by rw [hf, Nat.succ_mul]; omega), skip, ih, List.getElem?_cons_succ]

/-- Settles O52: the view is the concatenation of 32 rows of 64 pixels. -/
theorem frameBufferViewIsRowMajor : Obligations.FrameBufferViewIsRowMajor := by
  unfold Obligations.FrameBufferViewIsRowMajor
  intro s px py
  constructor
  · simp [State.fbView]
  · rw [State.fbView, getElem?_flatMap_of_length (by simp) _ _ px.isLt]
    simp

end Sys2Proof.Machine

/-! Single instructions (spec/41_control_flow.md R143, R144, spec/42_alu.md R164, R174, spec/44_input_timers.md R193,
spec/45_memory_block.md R201, R206, R207), and the worked values of the spec (spec/30_encoding.md R106, spec/10_state.md
R36). -/

namespace Sys2Proof.Machine

open Sys2Proof.Laws

/-! ### Worked values -/

/-- Settles O5: the words, their bytes and the illegal words are closed terms. -/
theorem workedEncodingsDecode : Obligations.WorkedEncodingsDecode := by
  unfold Obligations.WorkedEncodingsDecode
  refine ⟨rfl, rfl, rfl, rfl, rfl, rfl, rfl, rfl, rfl, rfl, rfl, rfl, rfl, rfl, rfl, rfl, by decide, ?_⟩
  simp only [List.forall_mem_cons]
  exact ⟨⟨_, rfl⟩, ⟨_, rfl⟩, ⟨_, rfl⟩, ⟨_, rfl⟩, ⟨_, rfl⟩, nofun⟩

/-- Settles O16: eighty closed reads of the glyph table. -/
theorem resetSeedsTheDefaultGlyphs : Obligations.ResetSeedsTheDefaultGlyphs := by
  unfold Obligations.ResetSeedsTheDefaultGlyphs
  decide

/-! ### Call and return -/

/-- Settles O25: `ret` pops the slot that `call` has pushed, which holds NEXT. -/
theorem callThenRetRestoresPcAndSp : Obligations.CallThenRetRestoresPcAndSp := by
  unfold Obligations.CallThenRetRestoresPcAndSp
  intro nnn s h
  have returned : (s.stack.set s.sp.val s.nextPc)[s.sp.val] = s.nextPc := Vector.getElem_set_self _
  refine ⟨_, _, exec_call_of_lt h nnn, exec_ret_of_pos (Nat.succ_pos _), ?_, rfl, fun k hk => ?_, rfl⟩
  · change (mask12 (s.stack.set s.sp.val s.nextPc)[s.sp.val]).toNat = _
    rw [returned, mask12_toNat, State.nextPc_toNat, Nat.mod_mod]
  · exact Vector.getElem_set_ne h k.isLt (Ne.symm hk)

/-! ### ALU -/

section

variable {w kk : Byte}

theorem byte_and_not_mask (r : Byte) : r &&& kk &&& ~~~kk = 0 := by
  rw [BitVec.and_assoc, BitVec.and_not_self]
  exact BitVec.and_zero

theorem byte_and_le (r : Byte) : (r &&& kk).toNat ≤ kk.toNat := by
  rw [BitVec.toNat_and]
  exact Nat.and_le_right

/-- A value without a bit outside the mask is not changed by it. -/
theorem byte_and_mask_of_inside (h : w &&& ~~~kk = 0) : w &&& kk = w := by
  apply BitVec.eq_of_getLsbD_eq
  intro j hj
  have inside : (w.getLsbD j && !kk.getLsbD j) = false := by
    simpa [hj, BitVec.getLsbD_eq_getElem] using congrArg (·.getLsbD j) h
  rw [BitVec.getLsbD_and]
  revert inside
  cases w.getLsbD j <;> cases kk.getLsbD j <;> decide

end

/-- R174: the effect of `random` for any draw, as one record update. -/
theorem randomWith_eq (r : Byte) (x : Reg) (kk : Byte) (s : State) :
    randomWith r x kk s = .next { s with
      v := s.v.set x (r &&& kk), pc := BitVec.ofNat 16 ((s.pc.toNat + 2) % 4096), drawCount := s.drawCount + 1 } :=
  writeReg_eq x (r &&& kk) s.countDraw

/-- Settles O33: masking a draw keeps it inside the mask, and a value inside the mask is its own masked draw. -/
theorem randomWritesAMaskedDraw : Obligations.RandomWritesAMaskedDraw := by
  unfold Obligations.RandomWritesAMaskedDraw
  intro x kk s
  refine ⟨formatRK_eq 0xC x kk ▸ decode_encode_random x kk, rfl,
    fun r => ⟨r &&& kk, randomWith_eq r x kk s, rfl, byte_and_not_mask r, byte_and_le r⟩, fun w inside => ?_,
    randomWith_eq _ x kk s⟩
  refine ⟨w, _, randomWith_eq w x kk s, ?_⟩
  rw [Fin.getElem_fin, Vector.getElem_set_self, byte_and_mask_of_inside inside]

/-- Settles O34: the second addition reads the sum that the first has written, and addition of bytes is associative. -/
theorem addLiteralTwiceIsAddLiteralOfTheSum : Obligations.AddLiteralTwiceIsAddLiteralOfTheSum := by
  unfold Obligations.AddLiteralTwiceIsAddLiteralOfTheSum
  intro x k1 k2 s
  refine ⟨_, _, _, rfl, rfl, rfl, ?_⟩
  have first : (s.setReg x (s.reg x + k1)).advance.reg x = s.reg x + k1 := by
    rw [State.reg_congr (State.advance_v _), State.reg_setReg, if_pos rfl]
  rw [State.advance_v, State.setReg_v, first, State.advance_v, State.setReg_v, Vector.set_set, BitVec.add_assoc,
    byte_add_eq k1 k2]
  rfl

/-! ### Input and the index register -/

/-- Settles O42: the two cells of the suspension are written, then PC advances. -/
theorem waitForKeySuspends : Obligations.WaitForKeySuspends := by
  unfold Obligations.WaitForKeySuspends
  intro x s
  exact ⟨formatRF_eq 0xF x 0x0A ▸ decode_encode_waitForKey x,
    congrArg _ (State.advance_eq { s with waiting := true, waitReg := x })⟩

/-- Settles O44: a 12-bit address is not changed by the reduction of the write of I. -/
theorem loadIndexWritesI : Obligations.LoadIndexWritesI := by
  unfold Obligations.LoadIndexWritesI
  intro nnn s
  refine ⟨decode_encode_loadIndex nnn, ?_⟩
  rw [exec, execLoadIndex, State.advance_eq, State.setIndex, mask12_addrLiteral, addrLiteral]

/-! ### Block load and store -/

theorem State.advance_loadRegs_eq (s : State) (n : Nat) :
    (s.loadRegs n).advance = { s with v := (s.loadRegs n).v, pc := BitVec.ofNat 16 ((s.pc.toNat + 2) % 4096) } := by
  rw [State.advance_eq, State.loadRegs_eq]

/-- Settles O48: of the registers that the load may write, those up to Vx hold the bytes from I upwards. -/
theorem loadRegistersReadsV0ToVx : Obligations.LoadRegistersReadsV0ToVx := by
  unfold Obligations.LoadRegistersReadsV0ToVx
  intro x s
  refine ⟨formatRF_eq 0xF x 0x65 ▸ decode_encode_loadRegistersFromMemory x, _, rfl, State.advance_loadRegs_eq _ _,
    fun r hr => ?_, fun r hr => ?_⟩
  · exact (s.reg_loadRegs x.isLt r).trans (if_pos (Nat.lt_succ_of_le hr))
  · exact (s.reg_loadRegs x.isLt r).trans (if_neg (Nat.not_lt_of_le hr))

/-- R61: a read depends on the address modulo 4096. -/
theorem State.memRead_of_mod_eq (s : State) {a b : Nat} (h : a % 4096 = b % 4096) : s.memRead a = s.memRead b := by
  rw [State.memRead, State.memRead, maskAddr_eq, maskAddr_eq, h]

/-- Settles O49: the store writes back bytes that the load has read from the same addresses, and the load reads back
bytes that the store has written from the same registers. -/
theorem blockLoadAndStoreRoundTrip : Obligations.BlockLoadAndStoreRoundTrip := by
  unfold Obligations.BlockLoadAndStoreRoundTrip
  intro x s w
  constructor
  · obtain ⟨_, t, ht, frame, loaded, _⟩ := loadRegistersReadsV0ToVx x s
    obtain ⟨_, u, hu, frame', stores⟩ := storeRegistersWritesV0ToVx x t
    have mem : t.mem = s.mem := by rw [frame]
    have index : t.i = s.i := by rw [frame]
    obtain ⟨stored, kept⟩ := stores (mem ▸ w)
    refine ⟨t, u, ht, hu, by rw [frame'], by rw [frame', index], fun a => ?_⟩
    by_cases written : ∃ r : Reg, r ≤ x ∧ a % 4096 = (t.i.toNat + r.val) % 4096
    · obtain ⟨r, hr, ha⟩ := written
      rw [u.memRead_of_mod_eq ha, stored r hr, loaded r hr, ← index, s.memRead_of_mod_eq ha]
    · rw [kept a fun r hr ha => written ⟨r, hr, ha⟩, State.memRead_congr mem]
  · obtain ⟨_, t, ht, frame, stores⟩ := storeRegistersWritesV0ToVx x s
    obtain ⟨_, u, hu, frame', loaded, kept⟩ := loadRegistersReadsV0ToVx x t
    have registers : t.v = s.v := by rw [frame]
    have index : t.i = s.i := by rw [frame]
    have restored (r : Reg) : u.v[r] = s.v[r] := by
      by_cases hr : r ≤ x
      · rw [loaded r hr, index, (stores w).1 r hr]
      · rw [kept r (lt_of_not_ge hr), registers]
    exact ⟨t, u, ht, hu, Vector.ext fun k hk => restored ⟨k, hk⟩, by rw [frame', index]⟩

end Sys2Proof.Machine

/-! Drawing (spec/43_draw.md R182, R183): the loop of `draw` in terms of the pixels that the sprite covers. -/

namespace Sys2Proof.Machine

open Sys2Proof.Laws

/-! ### The covered pixels -/

/-- R182: the pixels of the statement are those that the rows of the loop reach with a sprite bit of 1. -/
theorem State.spriteCovers_iff {s : State} {vx vy : Byte} {n : Nat} {px : Col} {py : Row} :
    s.spriteCovers vx vy n px py ↔ ∃ r, r < n ∧ py = spriteRow vy r ∧ rowCovers s vx r px := by
  constructor
  · rintro ⟨r, c, hr, hc, hx, hy, bit⟩
    exact ⟨r, hr, Fin.ext hy, c, hc, Fin.ext hx, bit⟩
  · rintro ⟨r, hr, rfl, c, hc, rfl, bit⟩
    exact ⟨r, c, hr, hc, rfl, rfl, bit⟩

/-- The sprite is read from memory at I. -/
theorem State.spriteCovers_congr {s t : State} (mem : t.mem = s.mem) (i : t.i = s.i) {vx vy : Byte} {n : Nat} {px : Col}
    {py : Row} : t.spriteCovers vx vy n px py ↔ s.spriteCovers vx vy n px py := by
  simp only [State.spriteCovers, i, State.memRead_congr mem]

section

variable {s : State} {vx vy : Byte} {n : Nat} (hn : n ≤ 32)
include hn

theorem pixel_drawSprite_of_covers {px : Col} {py : Row} (h : s.spriteCovers vx vy n px py) :
    (drawSprite s vx vy n).1.pixel px py = !s.fb.pixel px py := by
  rw [Bool.eq_iff_iff, drawSprite, pixel_drawRows s vx vy n hn, ← State.spriteCovers_iff, iff_true_intro h, iff_true,
    Bool.not_eq_true', Bool.not_eq_true]

theorem pixel_drawSprite_of_not_covers {px : Col} {py : Row} (h : ¬ s.spriteCovers vx vy n px py) :
    (drawSprite s vx vy n).1.pixel px py = s.fb.pixel px py := by
  rw [Bool.eq_iff_iff, drawSprite, pixel_drawRows s vx vy n hn, ← State.spriteCovers_iff, iff_false_intro h, iff_false,
    not_not]

/-- R183 (e): a collision is a covered pixel that was 1 at the start of the draw. -/
theorem collision_drawSprite :
    (drawSprite s vx vy n).2 = true ↔ ∃ px py, s.spriteCovers vx vy n px py ∧ s.fb.pixel px py = true := by
  rw [drawSprite, collision_drawRows s vx vy n hn]
  simp only [State.spriteCovers_iff, Bool.false_eq_true, false_or]
  constructor
  · rintro ⟨r, hr, px, covered, set⟩
    exact ⟨px, spriteRow vy r, ⟨r, hr, rfl, covered⟩, set⟩
  · rintro ⟨px, _, ⟨r, hr, rfl, covered⟩, set⟩
    exact ⟨r, hr, px, covered, set⟩

end

/-! ### The instruction -/

/-- Format RRN as the statement of `draw` writes it, field by field from the left. -/
theorem formatRRN_eq_fields (f : Nat) (x y n : Fin 16) :
    formatRRN f x y n = BitVec.ofNat 16 (f * 0x1000 + 0x100 * x.val + 0x10 * y.val + n.val) := by
  rw [formatRRN, Nat.mul_comm x.val, Nat.mul_comm y.val]

/-- R182: the meaning of `draw` as one record update. -/
theorem exec_draw_eq (x y : Reg) (n : Height) (s : State) :
    exec (.draw x y n) s = .next { s with
      v := s.v.set flagReg (flagByte (drawSprite s s.v[x] s.v[y] n.val).2)
      fb := (drawSprite s s.v[x] s.v[y] n.val).1
      pc := BitVec.ofNat 16 ((s.pc.toNat + 2) % 4096) } := by
  rw [exec, execDraw, State.advance_eq]
  rfl

/-- Settles O39: the loop flips the covered pixels, and the flag it leaves is the collision. -/
theorem drawXorsTheSpriteAndReportsCollision : Obligations.DrawXorsTheSpriteAndReportsCollision := by
  unfold Obligations.DrawXorsTheSpriteAndReportsCollision
  intro x y n s
  have rows : n.val ≤ 32 := by omega
  have flag (v : Vector Byte 16) (c : Bool) : (v.set flagReg (flagByte c))[(15 : Reg)] = flagByte c :=
    Vector.getElem_set_self _
  refine ⟨formatRRN_eq_fields 0xD x y n ▸ decode_encode_draw x y n, _, exec_draw_eq x y n s,
    fun px py => pixel_drawSprite_of_covers rows, fun px py => pixel_drawSprite_of_not_covers rows,
    fun collides => ?_, fun clear => ?_, fun r hr => ?_, rfl⟩
  · exact (flag _ _).trans (congrArg flagByte ((collision_drawSprite rows).2 collides))
  · exact (flag _ _).trans (congrArg flagByte (Bool.eq_false_iff.2 (mt (collision_drawSprite rows).1 clear)))
  · exact Vector.getElem_set_ne flagReg.isLt r.isLt fun e => hr (Fin.ext e.symm)

/-- Settles O40: neither coordinate register is VF, so both draws cover the same pixels; the second flips them back, and
it collides at a pixel that the first has flipped from 0 to 1. -/
theorem drawingTwiceRestoresTheFrameBuffer : Obligations.DrawingTwiceRestoresTheFrameBuffer := by
  unfold Obligations.DrawingTwiceRestoresTheFrameBuffer
  intro x y n s hx hy
  obtain ⟨_, t, ht, flipped, kept, _, _, registers, frame⟩ := drawXorsTheSpriteAndReportsCollision x y n s
  obtain ⟨_, u, hu, flipped', kept', collides, clear, _, _⟩ := drawXorsTheSpriteAndReportsCollision x y n t
  have same (px : Col) (py : Row) :
      t.spriteCovers t.v[x] t.v[y] n.val px py ↔ s.spriteCovers s.v[x] s.v[y] n.val px py := by
    rw [registers x hx, registers y hy]
    exact State.spriteCovers_congr (by rw [frame]) (by rw [frame])
  simp only [same] at flipped' kept' collides clear
  refine ⟨t, u, ht, hu, FrameBuffer.ext_pixel fun px py => ?_, fun flag => ?_, ?_⟩
  · by_cases h : s.spriteCovers s.v[x] s.v[y] n.val px py
    · rw [flipped' px py h, flipped px py h, Bool.not_not]
    · rw [kept' px py h, kept px py h]
  · by_contra none_off
    have silent : u.v[15] = 0 := clear fun ⟨px, py, covered, on⟩ =>
      none_off ⟨px, py, covered, by rwa [flipped px py covered, Bool.not_eq_true'] at on⟩
    exact absurd (flag.symm.trans silent) (by decide)
  · rintro ⟨px, py, covered, off⟩
    exact collides ⟨px, py, covered, by rw [flipped px py covered, off, Bool.not_false]⟩

end Sys2Proof.Machine
